-- ==== Sys2Proof/Word.lean ====
section
/-! DEFINITION. The widths the hardware handles: bytes, the 16-bit command word and the 16-bit
table pointer (spec 00_scope.md R9, R10; 10_state.md R24; 30_encoding.md R96). -/

namespace Sys2Proof

/-- Every value on the bus, in the ROM and in the data registers is 8 bits (R9: `BYTE_W` = 8). -/
abbrev Byte := BitVec 8

/-- The host command word `CMD`, 16 bits (R96). -/
abbrev CmdWord := BitVec 16

/-- A table ROM address as the pointer `TP` holds it, 16 bits (R24: `TP_W` = 16). -/
abbrev TableAddr := BitVec 16

end Sys2Proof
end

