-- ==== Sys2Proof/Syntax.lean ====
section
/-! DEFINITION. The instruction set: one constructor per row of spec/opcode_table.json.

Two levels (00_scope.md R3). The first eight constructors are host command words; each carries the
operand field whole, because acceptance loads it into `ARG` even where the command ignores it
(10_state.md R21, R40; log 9). The rest is the Register Table language and its pseudo-instructions. -/

namespace Sys2Proof

/-- The instructions of both levels (30_encoding.md R91, R92, R97, R99, R103). -/
inductive Instr where
  /-- `RESET`, opcode 0x01; the operand is ignored (R180). -/
  | reset (operand : Byte)
  /-- `APPLY_TABLE id`, opcode 0x02 (R150). -/
  | applyTable (id : Byte)
  /-- `READ_REG addr`, opcode 0x03 (R170). -/
  | readReg (addr : Byte)
  /-- `READ_STATUS`, opcode 0x04; the operand is ignored (R171). -/
  | readStatus (operand : Byte)
  /-- `BUILD_PACKET power`, opcode 0x05 (R190). -/
  | buildPacket (power : Byte)
  /-- `TRANSMIT_PACKET`, opcode 0x06; the operand is ignored (R193). -/
  | transmitPacket (operand : Byte)
  /-- `SEND_MOTOR_POWER power`, opcode 0x07 (R198). -/
  | sendMotorPower (power : Byte)
  /-- A command word with an unassigned opcode, 0x00 or 0x08 to 0xFF (R99). -/
  | unassigned (opcode operand : Byte)
  /-- `END`, a zero length byte (R92, R153). -/
  | tblEnd
  /-- `TXN d0, ..., d(N-1)`: a length byte N and N data bytes (R91, R152). -/
  | txn (data : List Byte)
  /-- `STROBE c`, short for `TXN c` (R103). -/
  | strobe (c : Byte)
  /-- `WREG a1, v1, ..., ak, vk`, short for the `TXN` of those 2k bytes (R103). -/
  | wreg (pairs : List (Byte × Byte))
  /-- `BURST h, v0, ..., v(k-1)`, short for the `TXN` of those 1 + k bytes (R103). -/
  | burst (header : Byte) (values : List Byte)
  deriving DecidableEq, Repr

end Sys2Proof
end

