-- ==== Sys2Proof/WellFormed.lean ====
section
/-! DEFINITION. Which terms of `Instr` have an encoding (30_encoding.md R91, R99, R103). -/

namespace Sys2Proof

/-- The data part of a table entry: 1 to 255 bytes (R91: `1 <= N <= 255`). -/
def entryLengthOk (n : Nat) : Bool := 1 ≤ n && n ≤ 255

/-- The check for each row. -/
def Instr.wf : Instr → Bool
  | .reset _ => true
  | .applyTable _ => true
  | .readReg _ => true
  | .readStatus _ => true
  | .buildPacket _ => true
  | .transmitPacket _ => true
  | .sendMotorPower _ => true
  | .unassigned opcode _ => opcode.toNat = 0 || 8 ≤ opcode.toNat
  | .tblEnd => true
  | .txn data => entryLengthOk data.length
  | .strobe _ => true
  | .wreg pairs => entryLengthOk (2 * pairs.length)
  | .burst _ values => 1 ≤ values.length && entryLengthOk (1 + values.length)

/-- An instruction the encoding tables can write. -/
abbrev WellFormed (i : Instr) : Prop := i.wf = true

end Sys2Proof
end

