-- ==== Sys2Proof/Decode.lean ====
section
/-! DEFINITION. Decoding command words and table bytes, and the encoder
(30_encoding.md R91 to R93, R96 to R99, R103). -/

namespace Sys2Proof

/-- Opcode numbers of the host command word (R97). -/
abbrev Opcode.reset : Byte := 0x01#8
abbrev Opcode.applyTable : Byte := 0x02#8
abbrev Opcode.readReg : Byte := 0x03#8
abbrev Opcode.readStatus : Byte := 0x04#8
abbrev Opcode.buildPacket : Byte := 0x05#8
abbrev Opcode.transmitPacket : Byte := 0x06#8
abbrev Opcode.sendMotorPower : Byte := 0x07#8

/-- `CMD[15:8]` (R96). -/
def cmdOpcode (w : CmdWord) : Byte := w.extractLsb' 8 8

/-- `CMD[7:0]` (R96). -/
def cmdOperand (w : CmdWord) : Byte := w.extractLsb' 0 8

/-- The command with opcode `opcode` and operand `operand`: the opcode map of R97, every other
opcode being unassigned (R99). -/
def commandOf (opcode operand : Byte) : Instr :=
  if opcode = Opcode.reset then .reset operand
  else if opcode = Opcode.applyTable then .applyTable operand
  else if opcode = Opcode.readReg then .readReg operand
  else if opcode = Opcode.readStatus then .readStatus operand
  else if opcode = Opcode.buildPacket then .buildPacket operand
  else if opcode = Opcode.transmitPacket then .transmitPacket operand
  else if opcode = Opcode.sendMotorPower then .sendMotorPower operand
  else .unassigned opcode operand

/-- A command word always has a format; what it may lack is an assigned opcode (R96, R99). -/
def decodeCommand (w : CmdWord) : Instr := commandOf (cmdOpcode w) (cmdOperand w)

/-- Why bytes are no instruction. -/
inductive DecodeError where
  /-- there is no length byte to read -/
  | missingLength
  /-- fewer data bytes than the length byte says (R91) -/
  | missingData
  /-- bytes are left over after one instruction -/
  | trailingBytes
  deriving DecidableEq, Repr

/-- One instruction of the table language, and the bytes after it: a zero length byte is `END`, any
other is `TXN` (R93). The pseudo-instructions are never recovered (R103; log 10). -/
def decodeEntry : List Byte → Except DecodeError (Instr × List Byte)
  | [] => .error .missingLength
  | n :: rest =>
    if n = 0#8 then .ok (.tblEnd, rest)
    else if rest.length < n.toNat then .error .missingData
    else .ok (.txn (rest.take n.toNat), rest.drop n.toNat)

/-- What an instruction is written as: a 16-bit word on the command port, or bytes in the ROM. -/
inductive Code where
  | command (w : CmdWord)
  | entry (bytes : List Byte)
  deriving DecidableEq, Repr

/-- Decode exactly one instruction of either level. -/
def decode : Code → Except DecodeError Instr
  | .command w => .ok (decodeCommand w)
  | .entry bytes =>
    match decodeEntry bytes with
    | .ok (i, []) => .ok i
    | .ok (_, _ :: _) => .error .trailingBytes
    | .error e => .error e

/-- `CMD` from its two fields (R96). -/
def commandWord (opcode operand : Byte) : CmdWord := opcode ++ operand

/-- The data bytes of `WREG` (R103): address, value, address, value, ... -/
def wregBytes (pairs : List (Byte × Byte)) : List Byte := pairs.flatMap fun p => [p.1, p.2]

/-- The entry with these data bytes: the length byte, then the data (R91). -/
def entryBytes (data : List Byte) : List Byte := BitVec.ofNat 8 data.length :: data

/-- The encoding of a well-formed instruction (R91, R92, R96, R97, R103). -/
def encode : Instr → Code
  | .reset operand => .command (commandWord Opcode.reset operand)
  | .applyTable id => .command (commandWord Opcode.applyTable id)
  | .readReg addr => .command (commandWord Opcode.readReg addr)
  | .readStatus operand => .command (commandWord Opcode.readStatus operand)
  | .buildPacket power => .command (commandWord Opcode.buildPacket power)
  | .transmitPacket operand => .command (commandWord Opcode.transmitPacket operand)
  | .sendMotorPower power => .command (commandWord Opcode.sendMotorPower power)
  | .unassigned opcode operand => .command (commandWord opcode operand)
  | .tblEnd => .entry [0x00#8]
  | .txn data => .entry (entryBytes data)
  | .strobe c => .entry (entryBytes [c])
  | .wreg pairs => .entry (entryBytes (wregBytes pairs))
  | .burst header values => .entry (entryBytes (header :: values))

/-- The instruction a pseudo-instruction abbreviates (R103), any other instruction itself. -/
def expand : Instr → Instr
  | .reset operand => .reset operand
  | .applyTable id => .applyTable id
  | .readReg addr => .readReg addr
  | .readStatus operand => .readStatus operand
  | .buildPacket power => .buildPacket power
  | .transmitPacket operand => .transmitPacket operand
  | .sendMotorPower power => .sendMotorPower power
  | .unassigned opcode operand => .unassigned opcode operand
  | .tblEnd => .tblEnd
  | .txn data => .txn data
  | .strobe c => .txn [c]
  | .wreg pairs => .txn (wregBytes pairs)
  | .burst header values => .txn (header :: values)

/-- The longest table instruction, 1 + 255 bytes (R91), and the length byte of the next entry. -/
abbrev tableWindow : Nat := 257

/-- The ROM bytes that a table row's `nbits` bits `w` stand for: the first byte is bits 7 to 0, later
bytes count on, and every byte above `nbits` is zero (log 12). -/
def tableRowBytes (nbits w : Nat) : List Byte :=
  (List.range tableWindow).map fun k => if 8 * k < nbits then BitVec.ofNat 8 (w / 2 ^ (8 * k)) else 0#8

/-- The decoder on a row of spec/opcode_table.json. A 16-bit row is a command word; any other is a
row of the table language (log 12). -/
def decodeTableWord (nbits w : Nat) : Option Instr :=
  if nbits = 16 then some (decodeCommand (BitVec.ofNat 16 w))
  else
    match decodeEntry (tableRowBytes nbits w) with
    | .ok (i, _) => some i
    | .error _ => none

end Sys2Proof
end

