-- ==== Sys2Proof/Config.lean ====
section
/-! DEFINITION. What an implementation fixes, and the free values.

The open parameters of 00_scope.md R9 and 93_implementation_defined.md U18 that are not the ROM are
one record, `Params`. A machine state carries one (log 4), so that a statement over every state is a
statement over every value of every parameter. The values of the machine at hand, its ROM with them, are
`Config.block` of Machine/Block.lean. `Config.radioReply` is the radio: a free value per exchange (R132,
U7; log 5). `Config.resetRes` is what the result register holds before the first read (R22; log 22). -/

namespace Sys2Proof

/-- `BUS_BIT_ORDER` (R9, R66): the bit order passed to `configure`. DESIGN CHOICE (log 17): the
document names the argument and gives no type. -/
inductive BitOrder where
  | msbFirst
  | lsbFirst
  deriving DecidableEq, Repr, Inhabited

/-- `BUS_MODE` (R9, R133): "clockPolarity/phase". Mode 0 is clock idle low, sample on the first edge.
DESIGN CHOICE (log 17): one bit each. -/
structure BusMode where
  /-- clock idles high -/
  polarity : Bool
  /-- data sampled on the second edge -/
  phase    : Bool
  deriving DecidableEq, Repr, Inhabited

/-- The open parameters outside the ROM (R9, U18). -/
structure Params where
  /-- `DUMMY_OUT`: sent while a reply is clocked in (D10: `0x00`, open as a parameter). -/
  dummyOut       : Byte
  /-- `CMD_SFTX`: flush-transmit-FIFO strobe; it reaches the bus only as a byte of PRE_TX (R211). -/
  cmdSftx        : Byte
  /-- `CMD_SIDLE`: idle-state strobe; a byte of PRE_TX and the last strobe of INIT (R211, R213). -/
  cmdSidle       : Byte
  /-- `CMD_STX`: transmit strobe; a byte of POST_LOAD (R212). -/
  cmdStx         : Byte
  /-- `CMD_TXFIFO_BURST`: header of the FIFO-load frame (R195, R111). -/
  cmdTxfifoBurst : Byte
  /-- `BUS_BIT_ORDER`, first argument of `CFG` (R181). -/
  busBitOrder    : BitOrder
  /-- `BUS_MODE`, second argument of `CFG` (R181). -/
  busMode        : BusMode
  /-- `BUS_CLKDIV`, third argument of `CFG` (R181). -/
  busClkdiv      : Nat
  /-- `CS_PIN`: bound when the block is built; no event carries it (R42, D9). -/
  csPin          : Nat
  deriving DecidableEq, Repr, Inhabited

/-- The byte the radio answers in its `n`-th exchange, under no law (R132, D23, U7; log 5). -/
opaque Config.radioReply : Nat → Byte

/-- What `RES` holds before any read command has completed: unspecified, "a model must not give it one"
(R22, R47), so open, and no proof can see it (log 22). -/
opaque Config.resetRes : Byte

/-- `PKT_LEN` (R9): bytes in a Command Packet. -/
abbrev Config.pktLen : Nat := 8

/-- `N_TABLES` (R9): entries of the table directory. -/
abbrev Config.nTables : Nat := 3

end Sys2Proof
end

