-- ==== Sys2Proof/Machine/Rom.lean ====
section
/-! DEFINITION. The table ROM: byte memory, the directory, reading, and the tables a ROM holds
(10_state.md R35; 20_memory.md R61, R71; 41_table_executor.md R158). -/

namespace Sys2Proof.Machine

/-! ### Memory -/

/-- A byte memory: (address, byte) pairs. An unlisted address has no value (log 3), so the canonical
form asks only that addresses rise strictly. -/
abbrev Memory := List Host.Cell

/-- The byte at an address; an unlisted address has no value (log 3). -/
def Memory.read : Memory → Nat → Option Byte
  | [], _ => none
  | (k, b) :: m, a => if k = a then some b else Memory.read m a

/-- The canonical form: addresses rise strictly. -/
abbrev Memory.wf (m : Memory) : Prop := m.Pairwise fun x y => x.1 < y.1

/-- A run of bytes from address `a` up. -/
def Memory.image : Nat → List Byte → Memory
  | _, [] => []
  | a, b :: bs => (a, b) :: Memory.image (a + 1) bs

/-- Bind a run of ROM bytes at address 0 from outside; no instruction does this (R76). -/
def Memory.load (m : Memory) (bs : List Byte) : Memory :=
  Memory.image 0 bs ++ m.filter fun c => bs.length ≤ c.1

/-! ### The table ROM -/

/-- The table ROM with its directory (R35, R71, R217). No step changes it. -/
structure TableRom where
  /-- the bytes -/
  cells        : Memory
  /-- `ROM_SIZE`, at most 2^16 (R9) -/
  size         : Fin 65537
  /-- `TABLE_BASE[0]`, INIT -/
  initBase     : TableAddr
  /-- `TABLE_BASE[1]`, PRE_TX -/
  preTxBase    : TableAddr
  /-- `TABLE_BASE[2]`, POST_LOAD -/
  postLoadBase : TableAddr
  deriving DecidableEq, Repr

/-- `TblRead(a)` (R61): the byte at `a`, nothing at or above `ROM_SIZE`. -/
def TableRom.tblRead (r : TableRom) (a : Nat) : Option Byte :=
  if a < r.size.val then r.cells.read a else none

/-- The readable bytes from address `a` up, at most `k` of them. -/
def TableRom.bytesFrom (r : TableRom) : Nat → Nat → List Byte
  | 0, _ => []
  | k + 1, a =>
    match r.tblRead a with
    | some b => b :: r.bytesFrom k (a + 1)
    | none => []

/-- The entries of the table that begins with these bytes, up to its first zero length byte (R90,
R156); none if the bytes end first, so that the table is not well formed (R158). -/
def tableEntries : Nat → List Byte → Option (List (List Byte))
  | 0, _ => none
  | fuel + 1, bytes =>
    match decodeEntry bytes with
    | .ok (.txn data, rest) => (tableEntries fuel rest).map (data :: ·)
    | .ok (.tblEnd, _) => some []
    | _ => none

/-- The entries of the table at `base`, none if it is not well formed (R158). An entry is at least one
byte long, so there are at most as many as there are bytes. -/
def TableRom.table (r : TableRom) (base : TableAddr) : Option (List (List Byte)) :=
  let bytes := r.bytesFrom 65536 base.toNat
  tableEntries (bytes.length + 1) bytes

/-- Bytes of a table with these entries, its terminator among them (R91, R92). -/
def tableLength (entries : List (List Byte)) : Nat := (entries.map fun d => 1 + d.length).sum + 1

/-- The bytes of a table with these entries (R90, R91, R92). -/
def tableBytes (entries : List (List Byte)) : List Byte := entries.flatMap entryBytes ++ [0x00#8]

end Sys2Proof.Machine
end

