-- ==== Sys2Proof/Machine/Tables.lean ====
section
/-! DEFINITION. The contents of the ROM (45_tables.md R210 to R217): what PRE_TX and POST_LOAD hold, the
conditions on INIT and on the layout, and the packed layout. -/

namespace Sys2Proof.Machine

/-- The entries of PRE_TX, two strobes (R211). -/
def preTxEntries (p : Params) : List (List Byte) := [[p.cmdSftx], [p.cmdSidle]]

/-- The entries of POST_LOAD, one strobe (R212). -/
def postLoadEntries (p : Params) : List (List Byte) := [[p.cmdStx]]

/-- The bytes of PRE_TX: `01 CMD_SFTX 01 CMD_SIDLE 00` (R211). -/
def preTxBytes (p : Params) : List Byte := [0x01#8, p.cmdSftx, 0x01#8, p.cmdSidle, 0x00#8]

/-- The bytes of POST_LOAD: `01 CMD_STX 00` (R212). -/
def postLoadBytes (p : Params) : List Byte := [0x01#8, p.cmdStx, 0x00#8]

/-- The ROM holds the two transmit tables (R211, R212). -/
def TableRom.holdsTransmitTables (p : Params) (r : TableRom) : Prop :=
  r.table r.preTxBase = some (preTxEntries p) ∧ r.table r.postLoadBase = some (postLoadEntries p)

/-! ### INIT -/

/-- What R213 requires INIT to hold, by kind, in the order of R210. Its bytes are open (D14); how the
register writes are grouped into entries, and how many registers and flush strobes there are, is not
stated. -/
structure InitContent where
  /-- the soft reset strobe -/
  softReset   : Byte
  /-- the register-write entries, each some pairs (address, value) -/
  writes      : List (List (Byte × Byte))
  /-- the header of the power-table burst -/
  powerHeader : Byte
  /-- its values -/
  powerValues : List Byte
  /-- the FIFO flush strobes -/
  flushes     : List Byte
  deriving DecidableEq, Repr

/-- The required entries between the soft reset strobe and the idle strobe: register writes, power-table
burst, FIFO flush strobes (R213). -/
def InitContent.middle (c : InitContent) : List (List Byte) :=
  c.writes.map wregBytes ++ (c.powerHeader :: c.powerValues) :: c.flushes.map fun b => [b]

/-- The entries of an INIT that has these between its soft reset strobe and its idle strobe (R213). -/
def InitContent.entries (p : Params) (c : InitContent) (middle : List (List Byte)) : List (List Byte) :=
  [c.softReset] :: (middle ++ [[p.cmdSidle]])

/-- A header byte of a write: the read bit, bit 7, is clear (R94, R104). -/
def writeHeader (b : Byte) : Bool := !b.getLsbD 7

/-- An entry that does not read and fits a length byte (R91, R214; log 23). -/
def writeEntry : List Byte → Bool
  | [] => false
  | header :: values => writeHeader header && values.length ≤ 254

/-- None of the required items is missing, and no register write has the read bit in its address
(R213, R214; log 23). -/
def InitContent.ok (c : InitContent) : Bool :=
  (c.writes ≠ [] && c.writes.all fun pairs => pairs ≠ [] && pairs.all fun w => writeHeader w.1) &&
  c.powerValues ≠ [] && c.flushes ≠ []

/-- The entries are an INIT: no entry reads, the first is the soft reset strobe, the last the idle strobe,
and between them stand at least the required entries, in order; any others may stand among them (R213,
R214). -/
def InitShape (p : Params) (entries : List (List Byte)) : Prop :=
  entries.all writeEntry = true ∧
  ∃ (c : InitContent) (middle : List (List Byte)),
    c.ok = true ∧ c.middle.Sublist middle ∧ entries = c.entries p middle

/-! ### Layout -/

/-- The ROM addresses of a table with these entries (R217). -/
def extent (base : TableAddr) (entries : List (List Byte)) : Nat × Nat :=
  (base.toNat, base.toNat + tableLength entries)

/-- Two runs of addresses have none in common. -/
def disjoint (x y : Nat × Nat) : Bool := x.2 ≤ y.1 || y.2 ≤ x.1

/-- The condition on the ROM parameter (R158, R211 to R214, R217): three well-formed tables with the
contents of 45_tables.md, wholly inside the ROM, none overlapping another. -/
def TableRom.layoutOk (p : Params) (r : TableRom) : Prop :=
  r.holdsTransmitTables p ∧
  ∃ init, r.table r.initBase = some init ∧ InitShape p init ∧
    disjoint (extent r.initBase init) (extent r.preTxBase (preTxEntries p)) = true ∧
    disjoint (extent r.initBase init) (extent r.postLoadBase (postLoadEntries p)) = true ∧
    disjoint (extent r.preTxBase (preTxEntries p)) (extent r.postLoadBase (postLoadEntries p)) = true

/-- The packed layout of R217: INIT at 0, PRE_TX and POST_LOAD after it, nothing else. -/
def packedRom (p : Params) (init : List Byte) : TableRom where
  cells := Memory.image 0 (init ++ preTxBytes p ++ postLoadBytes p)
  size := Fin.ofNat 65537 (init.length + 8)
  initBase := 0#16
  preTxBase := BitVec.ofNat 16 init.length
  postLoadBase := BitVec.ofNat 16 (init.length + 5)

end Sys2Proof.Machine
end

