-- ==== Sys2Proof/Machine/Block.lean ====
section
/-! DEFINITION. What is bound when the block is built and never changes: the open parameters and the ROM,
under the conditions the spec puts on them (00_scope.md R9; 10_state.md R35; 45_tables.md R210 to R217). -/

namespace Sys2Proof.Machine

/-- An all-zero content of the shape R213 asks for. It serves one purpose: to show that blocks exist. -/
def blankContent : InitContent where
  softReset := 0x00#8
  writes := [[(0x00#8, 0x00#8)]]
  powerHeader := 0x00#8
  powerValues := [0x00#8]
  flushes := [0x00#8]

/-- The packed ROM with that content and no other. -/
def blankRom : TableRom :=
  packedRom default (tableBytes (blankContent.entries default blankContent.middle))

theorem blankRom_layoutOk : blankRom.layoutOk default :=
  ⟨⟨by decide, by decide⟩, blankContent.entries default blankContent.middle, by decide,
    ⟨by decide, blankContent, _, by decide, List.Sublist.refl _, rfl⟩, by decide, by decide, by decide⟩

theorem blankRom_wf : blankRom.cells.wf := by decide

/-- A block: parameters, and a ROM in canonical form that holds the three tables for them (log 3). The
defaults only show that the type is inhabited. -/
structure Block where
  params   : Params := default
  rom      : TableRom := blankRom
  layoutOk : rom.layoutOk params := by exact blankRom_layoutOk
  romWf    : rom.cells.wf := by exact blankRom_wf
  deriving Inhabited

/-- The block at hand: nothing is known of it but that it meets its conditions (logs 3, 4). -/
opaque Config.block : Block

/-- Its parameters (R9, U18). -/
abbrev Config.params : Params := Config.block.params

/-- Its ROM (R35). -/
abbrev Config.rom : TableRom := Config.block.rom

end Sys2Proof.Machine
end

