-- ==== Sys2Proof/Machine/State.lean ====
section
/-! DEFINITION. The state of the sequencer (10_state.md R20 to R47), the reasons a step can stop, and
the state after hardware reset (R47, R260). -/

namespace Sys2Proof.Machine

/-- The sequencer has no exception: "The set of exception causes is empty" (60_exceptions.md R230).
So no step ends in a fault, and the type has no constructor (log 16). -/
inductive Fault where
  deriving DecidableEq, Repr

/-- The spec's refusals (R239), each raised where a rule writes `refuse(...)`. All are safe: the
model proves nothing of a refused run. -/
inductive Refusal where
  /-- exec's arm for an instruction without a meaning; safe. No arm raises it. -/
  | notModelled (mnemonic : String)
  /-- `before_reset`: a command that uses the bus while `INITED` = 0 (R262); raised by APPLY_TABLE,
  READ_REG, READ_STATUS, TRANSMIT_PACKET, SEND_MOTOR_POWER; safe. -/
  | beforeReset
  /-- `no_packet`: TRANSMIT_PACKET while `PKT_VALID` = 0 (R193); safe. -/
  | noPacket
  /-- `bad_opcode`: a command word with an unassigned opcode (R99); safe. -/
  | badOpcode
  /-- `bad_table_id`: APPLY_TABLE with an id of `N_TABLES` or more (R99, R150); safe. -/
  | badTableId
  /-- `bad_table`: a table that is not well formed, or a fetch outside the ROM (R61, R158); raised by
  every command that walks a table and by the walker's own fetch; safe. -/
  | badTable
  deriving DecidableEq, Repr

/-- A request to the bus adapter (R43). -/
inductive Event where
  /-- `CFG(order, mode, div)`: `configure(...)` -/
  | cfg (order : BitOrder) (mode : BusMode) (div : Nat)
  /-- `PINMODE`: `setPinMode(CS_PIN, output)` -/
  | pinMode
  /-- `PIN(level)`: `writePin(CS_PIN, level)` -/
  | pin (level : Bool)
  /-- `XFER(out, in)`: `transferByte(out) → in` -/
  | xfer (out inp : Byte)
  deriving DecidableEq, Repr

/-- The packet buffer `PKT[0]` to `PKT[7]` (R25), with the field names of 30_encoding.md R110. -/
structure Packet where
  fix0   : Byte
  fix1   : Byte
  fix2   : Byte
  motorA : Byte
  motorB : Byte
  fix5   : Byte
  fix6   : Byte
  fix7   : Byte
  deriving DecidableEq, Repr

/-- Which of a command's table walks is in progress, and so what follows its `END` (R150, R180 step 4,
R193 steps 1 and 3). -/
inductive Walk where
  /-- APPLY_TABLE's table: the command is then complete -/
  | apply
  /-- INIT in a RESET: the command is then complete -/
  | init
  /-- PRE_TX: the FIFO load comes next -/
  | preTx
  /-- POST_LOAD: the packet is then used up and the command complete (R199) -/
  | postLoad
  deriving DecidableEq, Repr

/-- The frames that do not come from a table (R134). -/
inductive FrameKind where
  /-- the status frame of the ready poll (R183) -/
  | status
  /-- the frame of READ_REG (R170) -/
  | readReg
  /-- the frame of READ_STATUS (R171) -/
  | readStatus
  /-- the FIFO load (R195) -/
  | fifo
  deriving DecidableEq, Repr

/-- What is left to do after such a frame's last transfer, besides raising chip-select: the local
variable of the pseudocode that is still needed. -/
inductive Closing where
  /-- the ready poll's test `(s & 0x80) = 0` of the status byte just received (R183) -/
  | poll (ready : Bool)
  /-- the reply that will be `RES` (R173) -/
  | keep (reply : Byte)
  /-- FIFO load: every reply is dropped (R195) -/
  | drop
  deriving DecidableEq, Repr

/-- `PHASE` (R29): the position inside the command in progress, that is, which atomic step comes next
(R137). Its constructors are the control positions of the pseudocode. -/
inductive Phase where
  /-- no command in progress -/
  | idle
  /-- RESET step 1: `BusConfigure` (R181) -/
  | configure
  /-- RESET step 2, first half of `PinInit` (R182) -/
  | pinMode
  /-- RESET step 2, second half of `PinInit` (R182) -/
  | pinHigh
  /-- `CsAssert` of a frame (R134) -/
  | frame (f : FrameKind)
  /-- `Xfer` of byte `k` of a frame -/
  | send (f : FrameKind) (k : Nat)
  /-- `CsDeassert` of a frame -/
  | close (c : Closing)
  /-- `ApplyTable` begins: the base is due to be loaded into `TP` (R151) -/
  | table (w : Walk)
  /-- the walker fetches a length byte at `TP` (R151) -/
  | walk (w : Walk)
  /-- `CsAssert` of a table entry (R152) -/
  | select (w : Walk)
  /-- fetch and `Xfer` of a data byte of a table entry (R152) -/
  | data (w : Walk)
  /-- `CsDeassert` of a table entry (R152) -/
  | deselect (w : Walk)
  deriving DecidableEq, Repr

/-- The state: R20's list, then the model's own fields (logs 4, 5, 6). -/
structure State where
  /-- `ARG`, the operand of the command in progress (R21) -/
  arg      : Byte
  /-- `RES`, the result register (R22) -/
  res      : Byte
  /-- `CNT`, data bytes of the current entry still to go (R23) -/
  cnt      : Byte
  /-- `PKT[0..7]` (R25) -/
  pkt      : Packet
  /-- `TP`, the table pointer and program counter (R24) -/
  tp       : TableAddr
  /-- `PKT_VALID` (R26) -/
  pktValid : Bool
  /-- `BUSY` (R27) -/
  busy     : Bool
  /-- `INITED`, ghost (R32) -/
  inited   : Bool
  /-- `OP`, the opcode of the command in progress (R28) -/
  op       : Byte
  /-- `PHASE` (R29) -/
  phase    : Phase
  /-- `CS_N`, the chip-select level driven (R30); false is 0, asserted -/
  csN      : Bool
  /-- `CS_OE`, chip-select pin is an output (R31) -/
  csOe     : Bool
  /-- the table ROM (R35), constant -/
  rom      : TableRom
  /-- `TRACE`, ghost, oldest event first (R44) -/
  trace    : List Event
  /-- the command words the host will still present, first one first (R274; log 6) -/
  pending  : List CmdWord
  /-- radio replies already settled, next one first (R132; log 5) -/
  replies  : List Byte
  /-- exchanges made so far, the index of the next free reply (log 5) -/
  drawn    : Nat
  /-- the open parameters, constant (R9; log 4) -/
  params   : Params
  deriving DecidableEq, Repr

/-- Power-on of the block (R47, R260), with nothing presented to it. Zero where the spec leaves the value
unspecified (logs 1, 2), but for `RES`, which stays open (R22; log 22). The ROM and the parameters are
those of the block at hand (logs 3, 4), the replies are free (log 5). -/
def State.reset : State where
  arg := 0#8
  res := Config.resetRes
  cnt := 0#8
  pkt := ⟨0#8, 0#8, 0#8, 0#8, 0#8, 0#8, 0#8, 0#8⟩
  tp := 0#16
  pktValid := false
  busy := false
  inited := false
  op := 0#8
  phase := .idle
  csN := false
  csOe := false
  rom := Config.rom
  trace := []
  pending := []
  replies := []
  drawn := 0
  params := Config.params

end Sys2Proof.Machine
end

