-- ==== Sys2Proof/Machine/Operands.lean ====
section
/-! DEFINITION. What an operand stands for: the read header, the table directory, the packet of a
power value, and the replies the radio gives. -/

namespace Sys2Proof.Machine

/-- `READ_BIT` (R9, R104). -/
def readBit : Byte := 0x80#8

/-- `CMD_STATUS`, register 0 with the read bit set (R9, R104). -/
def cmdStatus : Byte := 0x80#8

/-- The header of a register read, `addr | 0x80`; all 8 bits of `addr` are kept (R12(a), R170). -/
def readHeader (addr : Byte) : Byte := addr ||| readBit

/-- `TABLE_BASE[id]`, or none for an id of `N_TABLES` or more (R150, R210 to R212). -/
def TableRom.base (r : TableRom) (id : Byte) : Option TableAddr :=
  if id = 0#8 then some r.initBase
  else if id = 1#8 then some r.preTxBase
  else if id = 2#8 then some r.postLoadBase
  else none

/-- The Command Packet of power `p`: `01 00 A5 P P 00 00 05` (R109, R190). The power is copied, never
clamped (R192). -/
def packetOf (p : Byte) : Packet where
  fix0 := 0x01#8
  fix1 := 0x00#8
  fix2 := 0xA5#8
  motorA := p
  motorB := p
  fix5 := 0x00#8
  fix6 := 0x00#8
  fix7 := 0x05#8

/-- `PKT[0]` to `PKT[7]` in wire order (R65, R109). -/
def Packet.bytes (k : Packet) : List Byte :=
  [k.fix0, k.fix1, k.fix2, k.motorA, k.motorB, k.fix5, k.fix6, k.fix7]

/-- The reply of the `k`-th exchange from now: what is already settled, past that a free value
(R132; log 5). -/
def State.replyAt (s : State) (k : Nat) : Byte :=
  match s.replies[k]? with
  | some b => b
  | none => Config.radioReply (s.drawn + k)

/-- The replies of the next `n` exchanges. -/
def State.nextReplies (s : State) (n : Nat) : List Byte := (List.range n).map s.replyAt

end Sys2Proof.Machine
end

