-- ==== Sys2Proof/Machine/Flags.lean ====
section
/-! DEFINITION. The flags: the one bit the sequencer tests, and the writes of `BUSY`, `PKT_VALID`
with `PKT`, `CS_OE` and `INITED`. There are no condition codes (10_state.md R34). -/

namespace Sys2Proof.Machine

/-- `READY_MASK` (R9): the chip-ready flag, bit 7 of the status byte. -/
def readyMask : Byte := 0x80#8

/-- The test of the ready poll, `(s & 0x80) = 0` (R12(b), R108, R183). -/
def chipReady (status : Byte) : Bool := status &&& readyMask = 0#8

/-- Acceptance of a command: `OP`, `ARG` and `BUSY` are loaded (R40). -/
def State.accept (opcode operand : Byte) (s : State) : State :=
  { s with op := opcode, arg := operand, busy := true }

/-- The command's last step has been taken: `BUSY <- 0`, `PHASE` idle (R27, R29). -/
def State.complete (s : State) : State := { s with busy := false, phase := .idle }

/-- `BuildPacket(p)` (R190): all eight bytes at once, and `PKT_VALID <- 1`. -/
def State.buildPacket (p : Byte) (s : State) : State :=
  { s with pkt := packetOf p, pktValid := true }

/-- The packet is used up; its bytes stay (R193, R199). -/
def State.usePacket (s : State) : State := { s with pktValid := false }

end Sys2Proof.Machine
end

