-- ==== Sys2Proof/Machine/Ops.lean ====
section
/-! DEFINITION. The named operations: hardware reset, the bus primitives, the frame, the table executor
and the steps of the command rules (40_bus_primitives.md, 41_table_executor.md R151 to R158).

The sequencer takes no exception and returns from none (60_exceptions.md R230, R237, R238), so there
is no exception entry here. -/

namespace Sys2Proof.Machine

/-! ### Hardware reset -/

/-- Hardware reset of a block that has been running (R47, R260): the values of `State.reset`; the ROM and
the parameters are not affected, nor is the radio (R261). No step of a run does this (log 18). -/
def State.hardwareReset (s : State) : State :=
  { State.reset with rom := s.rom, params := s.params, replies := s.replies, drawn := s.drawn }

/-! ### Bus primitives -/

/-- `emit(e)` (R44). -/
def State.emit (e : Event) (s : State) : State := { s with trace := s.trace ++ [e] }

/-- `CsAssert()` (R130). -/
def State.csAssert (s : State) : State := { s with csN := false }.emit (.pin false)

/-- `CsDeassert()` (R131). -/
def State.csDeassert (s : State) : State := { s with csN := true }.emit (.pin true)

/-- `Xfer(out)` (R132): the reply, and the state after the exchange. -/
def State.xfer (out : Byte) (s : State) : Byte × State :=
  (s.replyAt 0,
    { s with replies := s.replies.tail, drawn := s.drawn + 1 }.emit (.xfer out (s.replyAt 0)))

/-- The transfers of a frame, in ascending order (R134). -/
def State.xferAll : List Byte → State → List Byte × State
  | [], s => ([], s)
  | b :: bs, s =>
    let one := s.xfer b
    let others := State.xferAll bs one.2
    (one.1 :: others.1, others.2)

/-- `Frame(bytes)` (R134): the replies, and the state after chip-select is high again. -/
def State.frame (bytes : List Byte) (s : State) : List Byte × State :=
  let r := s.csAssert.xferAll bytes
  (r.1, r.2.csDeassert)

/-- `BusConfigure()` (R133, R181). -/
def State.busConfigure (s : State) : State :=
  s.emit (.cfg s.params.busBitOrder s.params.busMode s.params.busClkdiv)

/-- The first half of `PinInit()` (R133, R182): `CS_OE <- 1`, `PINMODE`. -/
def State.pinOutput (s : State) : State := { s with csOe := true }.emit .pinMode

/-- The second half of `PinInit()` (R133, R182): `CS_N <- 1`, `PIN(1)`, `INITED <- 1`. -/
def State.pinHigh (s : State) : State := { { s with csN := true }.emit (.pin true) with inited := true }

/-- `PinInit()` (R133, R182). -/
def State.pinInit (s : State) : State := s.pinOutput.pinHigh

/-- The frame of a read: its header, the dummy byte, and the second reply, which is kept (R112, R170,
R171); the reply to the header is dropped. -/
def State.readFrame (header : Byte) (s : State) : Byte × State :=
  let r := s.frame [header, s.params.dummyOut]
  (r.1.getD 1 0#8, r.2)

/-! ### The table executor -/

/-- The loop of `ExecTxn` (R152): fetch a byte, send it, drop the reply, count down. -/
def State.sendData : List Byte → State → State
  | [], s => s
  | b :: bs, s =>
    let s := ({ s with tp := s.tp + 1#16 }.xfer b).2
    State.sendData bs { s with cnt := s.cnt - 1#8 }

/-- One table entry: the fetch of its length byte (R151) and `ExecTxn` (R152). -/
def State.sendEntry (data : List Byte) (s : State) : State :=
  let s := { s with tp := s.tp + 1#16, cnt := BitVec.ofNat 8 data.length }
  (s.csAssert.sendData data).csDeassert

/-- The fetch of the terminator's length byte (R151, R153): no event. -/
def State.fetchEnd (s : State) : State := { s with tp := s.tp + 1#16 }

/-- The walk of a table whose entries are given: the loop of `ApplyTable` (R151). -/
def State.walkEntries (entries : List (List Byte)) (s : State) : State :=
  (entries.foldl (fun s data => s.sendEntry data) s).fetchEnd

/-- `ApplyTable(base)` (R151); none if the table is not well formed (R158). -/
def State.applyTable (base : TableAddr) (s : State) : Option State :=
  (s.rom.table base).map fun entries => State.walkEntries entries { s with tp := base }

/-- `ApplyTable` inside a command: refused on a table that is not well formed (R158, R239). -/
def State.withTable (base : TableAddr) (s : State) (after : State → Host.Outcome State Fault Refusal) :
    Host.Outcome State Fault Refusal :=
  match s.applyTable base with
  | some t => after t
  | none => .refused .badTable

/-- What follows the `END` of a walk (R150, R180, R193, R199). -/
def State.afterEnd (w : Walk) (s : State) : State :=
  match w with
  | .apply => s.complete
  | .init => s.complete
  | .preTx => { s with phase := .frame .fifo }
  | .postLoad => s.usePacket.complete

/-- `END` returns to the command whose walk is in progress (R153). -/
def State.afterTable (s : State) : State :=
  match s.phase with
  | .walk w => s.afterEnd w
  | _ => s

/-! ### Command rules -/

/-- The command port (R40): a command is accepted only while `BUSY` = 0; one offered while `BUSY` = 1 is
not accepted and changes nothing (log 8). -/
def State.onAccept (opcode operand : Byte) (s : State) (rule : State → Host.Outcome State Fault Refusal) :
    Host.Outcome State Fault Refusal :=
  if s.busy then .next s else rule (s.accept opcode operand)

/-- The boot requirement of the commands that use the bus (R32, R262). -/
def State.afterBoot (s : State) (rule : State → Host.Outcome State Fault Refusal) :
    Host.Outcome State Fault Refusal :=
  if s.inited then rule s else .refused .beforeReset

/-- RESET steps 3 and 4 (R183, R184): one status frame; if the chip is ready the INIT table and
completion, otherwise another status frame is due. -/
def State.pollStatus (s : State) : Host.Outcome State Fault Refusal :=
  let r := s.readFrame cmdStatus
  if chipReady r.1 then r.2.withTable r.2.rom.initBase fun t => .next t.complete
  else .next { r.2 with phase := .frame .status }

/-- TRANSMIT_PACKET step 2 (R195): the FIFO-load frame; the replies are dropped. -/
def State.loadFifo (s : State) : State := (s.frame (s.params.cmdTxfifoBurst :: s.pkt.bytes)).2

/-- `TransmitPacket()` and completion (R193). -/
def State.transmit (s : State) : Host.Outcome State Fault Refusal :=
  s.withTable s.rom.preTxBase fun s =>
  s.loadFifo.withTable s.rom.postLoadBase fun s =>
  .next s.usePacket.complete

/-! ### Atomic steps

The operations above run a frame, a walk or a command whole. Those below take it one atomic step at a
time, each with at most one event (R137, D5), out of the same bus primitives. -/

/-- The bytes of a frame that does not come from a table (R170, R171, R183, R195). -/
def State.frameBytes (f : FrameKind) (s : State) : List Byte :=
  match f with
  | .status => [cmdStatus, s.params.dummyOut]
  | .readReg => [readHeader s.arg, s.params.dummyOut]
  | .readStatus => [cmdStatus, s.params.dummyOut]
  | .fifo => s.params.cmdTxfifoBurst :: s.pkt.bytes

/-- What becomes of a frame's last reply (R136): the poll tests it, a read keeps it, the FIFO load drops
it. -/
def FrameKind.closing (f : FrameKind) (reply : Byte) : Closing :=
  match f with
  | .status => .poll (chipReady reply)
  | .readReg => .keep reply
  | .readStatus => .keep reply
  | .fifo => .drop

/-- One transfer of a frame (R134). No run reaches an index past the last byte; there the machine stays
as it is (log 14). -/
def State.sendStep (f : FrameKind) (k : Nat) (s : State) : State :=
  match (s.frameBytes f)[k]? with
  | none => s
  | some b =>
    let r := s.xfer b
    { r.2 with phase :=
        if k + 1 < (s.frameBytes f).length then .send f (k + 1) else .close (f.closing r.1) }

/-- The end of a frame: `CsDeassert`, and what the command does with the reply (R173, R183, R193). -/
def State.closeStep (c : Closing) (s : State) : State :=
  let s := s.csDeassert
  match c with
  | .poll ready => { s with phase := if ready then .table .init else .frame .status }
  | .keep reply => { s with res := reply }.complete
  | .drop => { s with phase := .table .postLoad }

/-- The table that a walk is of (R150, R184, R194, R196). -/
def State.walkBase (w : Walk) (s : State) : Option TableAddr :=
  match w with
  | .apply => s.rom.base s.arg
  | .init => some s.rom.initBase
  | .preTx => some s.rom.preTxBase
  | .postLoad => some s.rom.postLoadBase

/-- `ApplyTable` begins (R151): `TP <- base`, on a well-formed table only (R158). -/
def State.tableStep (w : Walk) (s : State) : Host.Outcome State Fault Refusal :=
  match s.walkBase w with
  | none => .refused .badTableId
  | some base =>
    match s.rom.table base with
    | none => .refused .badTable
    | some _ => .next { s with tp := base, phase := .walk w }

/-- The fetch of a length byte other than zero (R151, R152): `TP + 1`, `CNT <- n`. -/
def State.fetchLength (n : Byte) (w : Walk) (s : State) : State :=
  { s with tp := s.tp + 1#16, cnt := n, phase := .select w }

/-- The body of `ExecTxn`'s loop (R152): fetch a byte at `TP`, send it, drop the reply, count down. -/
def State.dataStep (w : Walk) (s : State) : Host.Outcome State Fault Refusal :=
  match s.rom.tblRead s.tp.toNat with
  | none => .refused .badTable
  | some b =>
    let s := ({ s with tp := s.tp + 1#16 }.xfer b).2
    let s := { s with cnt := s.cnt - 1#8 }
    .next { s with phase := if s.cnt = 0#8 then .deselect w else .data w }

/-! ### Placing one instruction where the machine fetches -/

/-- A host command is the next word on the command port of a machine with no command in progress. -/
def State.placeCommand (w : CmdWord) (s : State) : State :=
  { s with pending := w :: s.pending, busy := false, phase := .idle }

/-- A table instruction is a walk in progress at ROM address 0, which holds these bytes (log 12). -/
def State.placeEntry (bytes : List Byte) (s : State) : State :=
  { s with
    rom := { s.rom with cells := s.rom.cells.load bytes, size := 65536 }
    tp := 0#16
    busy := true
    phase := .walk .apply }

end Sys2Proof.Machine
end

