-- ==== Sys2Proof/Machine/PacketFramer.lean ====
section
/-! DEFINITION. The host commands BUILD_PACKET, TRANSMIT_PACKET and SEND_MOTOR_POWER
(44_packet_framer.md R190 to R200). -/

namespace Sys2Proof.Machine

/-- `BUILD_PACKET power` (R190): no bus, so no check of `INITED`. -/
def execBuildPacket (power : Byte) (s : State) : Host.Outcome State Fault Refusal :=
  s.onAccept Opcode.buildPacket power fun s => .next (s.buildPacket s.arg).complete

/-- `TRANSMIT_PACKET` (R193): `INITED` is checked before `PKT_VALID` (R236). -/
def execTransmitPacket (operand : Byte) (s : State) : Host.Outcome State Fault Refusal :=
  s.onAccept Opcode.transmitPacket operand fun s =>
  s.afterBoot fun s =>
  if s.pktValid then s.transmit else .refused .noPacket

/-- `SEND_MOTOR_POWER power` (R198): build, then transmit. -/
def execSendMotorPower (power : Byte) (s : State) : Host.Outcome State Fault Refusal :=
  s.onAccept Opcode.sendMotorPower power fun s =>
  s.afterBoot fun s => (s.buildPacket s.arg).transmit

end Sys2Proof.Machine
end

