-- ==== Sys2Proof/Machine/RegisterReads.lean ====
section
/-! DEFINITION. The host commands READ_REG and READ_STATUS (42_register_access.md R170 to R174), the
only writers of `RES`. -/

namespace Sys2Proof.Machine

/-- `READ_REG addr` (R170). -/
def execReadReg (addr : Byte) (s : State) : Host.Outcome State Fault Refusal :=
  s.onAccept Opcode.readReg addr fun s =>
  s.afterBoot fun s =>
  let r := s.readFrame (readHeader s.arg)
  .next { r.2 with res := r.1 }.complete

/-- `READ_STATUS` (R171). -/
def execReadStatus (operand : Byte) (s : State) : Host.Outcome State Fault Refusal :=
  s.onAccept Opcode.readStatus operand fun s =>
  s.afterBoot fun s =>
  let r := s.readFrame cmdStatus
  .next { r.2 with res := r.1 }.complete

end Sys2Proof.Machine
end

