-- ==== Sys2Proof/Machine/ResetCommand.lean ====
section
/-! DEFINITION. The host command RESET (43_reset_command.md R180 to R186). -/

namespace Sys2Proof.Machine

/-- `RESET` (R180): configure the bus, make the pin an output at high level, then the first status
frame. A chip that is ready gets the INIT table and the command completes; for one that is not, `BUSY`
stays 1 and the next status frame is due, without bound (R183; log 7). -/
def execReset (operand : Byte) (s : State) : Host.Outcome State Fault Refusal :=
  s.onAccept Opcode.reset operand fun s => s.busConfigure.pinInit.pollStatus

end Sys2Proof.Machine
end

