-- ==== Sys2Proof/Machine/TableCommand.lean ====
section
/-! DEFINITION. The host command APPLY_TABLE (41_table_executor.md R150), and the command word with an
unassigned opcode (30_encoding.md R99). -/

namespace Sys2Proof.Machine

/-- `APPLY_TABLE id` (R150): the id is checked after `INITED` (R236). -/
def execApplyTable (id : Byte) (s : State) : Host.Outcome State Fault Refusal :=
  s.onAccept Opcode.applyTable id fun s =>
  s.afterBoot fun s =>
  match s.rom.base s.arg with
  | none => .refused .badTableId
  | some base => s.withTable base fun t => .next t.complete

/-- An unassigned opcode has no meaning at all (R99, D4), so this refuses in every state (log 11). -/
def execUnassigned (_opcode _operand : Byte) (_s : State) : Host.Outcome State Fault Refusal :=
  .refused .badOpcode

end Sys2Proof.Machine
end

