-- ==== Sys2Proof/Machine/TableInstr.lean ====
section
/-! DEFINITION. The table instructions END and TXN and the three spellings of TXN
(41_table_executor.md R152, R153; 30_encoding.md R103). They are run with `TP` at their length byte. -/

namespace Sys2Proof.Machine

/-- `END` (R153): its length byte is fetched, no event, and the walk returns to its command. -/
def execTblEnd (s : State) : Host.Outcome State Fault Refusal := .next s.fetchEnd.afterTable

/-- `TXN` (R152): one frame of the data bytes, every reply dropped. -/
def execTxn (data : List Byte) (s : State) : Host.Outcome State Fault Refusal :=
  .next (s.sendEntry data)

/-- `STROBE c` is `TXN c` (R103, R106). -/
def execStrobe (c : Byte) (s : State) : Host.Outcome State Fault Refusal := .next (s.sendEntry [c])

/-- `WREG` is the `TXN` of its pairs (R103). -/
def execWreg (pairs : List (Byte × Byte)) (s : State) : Host.Outcome State Fault Refusal :=
  .next (s.sendEntry (wregBytes pairs))

/-- `BURST h, v...` is the `TXN` of the header and the values (R103, R107). -/
def execBurst (header : Byte) (values : List Byte) (s : State) : Host.Outcome State Fault Refusal :=
  .next (s.sendEntry (header :: values))

end Sys2Proof.Machine
end

