-- ==== Sys2Proof/Machine/Dispatch.lean ====
section
/-! DEFINITION. One arm per instruction. -/

namespace Sys2Proof.Machine

def exec (i : Instr) (s : State) : Host.Outcome State Fault Refusal :=
  match i with
  -- host commands (30_encoding.md R97)
  | .reset operand => Sys2Proof.Machine.execReset operand s
  | .applyTable id => Sys2Proof.Machine.execApplyTable id s
  | .readReg addr => Sys2Proof.Machine.execReadReg addr s
  | .readStatus operand => Sys2Proof.Machine.execReadStatus operand s
  | .buildPacket power => Sys2Proof.Machine.execBuildPacket power s
  | .transmitPacket operand => Sys2Proof.Machine.execTransmitPacket operand s
  | .sendMotorPower power => Sys2Proof.Machine.execSendMotorPower power s
  | .unassigned opcode operand => Sys2Proof.Machine.execUnassigned opcode operand s
  -- the table language (30_encoding.md R91, R92, R103)
  | .tblEnd => Sys2Proof.Machine.execTblEnd s
  | .txn data => Sys2Proof.Machine.execTxn data s
  | .strobe c => Sys2Proof.Machine.execStrobe c s
  | .wreg pairs => Sys2Proof.Machine.execWreg pairs s
  | .burst header values => Sys2Proof.Machine.execBurst header values s

end Sys2Proof.Machine
end

