-- ==== Sys2Proof/Machine/Control.lean ====
section
/-! DEFINITION. What one atomic step does in each position (10_state.md R29, R40; 40_bus_primitives.md
R137): how an instruction begins, and how the one in progress goes on. `exec` is an instruction run
whole; from where it begins, the steps reach what `exec` answers (log 7). -/

namespace Sys2Proof.Machine

/-- A command word begins (R40): it is accepted or refused, and `PHASE` is put at its first atomic step.
The internal actions before that step are taken with the acceptance, so BUILD_PACKET, which has no other,
runs whole. A table instruction is never a command word. -/
def State.begin (i : Instr) (s : State) : Host.Outcome State Fault Refusal :=
  match i with
  | .reset x => s.onAccept Opcode.reset x fun s => .next { s with phase := .configure }
  | .applyTable x => s.onAccept Opcode.applyTable x fun s => s.afterBoot fun s =>
      match s.rom.base s.arg with
      | none => .refused .badTableId
      | some _ => .next { s with phase := .table .apply }
  | .readReg x => s.onAccept Opcode.readReg x fun s => s.afterBoot fun s =>
      .next { s with phase := .frame .readReg }
  | .readStatus x => s.onAccept Opcode.readStatus x fun s => s.afterBoot fun s =>
      .next { s with phase := .frame .readStatus }
  | .buildPacket x => exec (.buildPacket x) s
  | .transmitPacket x => s.onAccept Opcode.transmitPacket x fun s => s.afterBoot fun s =>
      if s.pktValid then .next { s with phase := .table .preTx } else .refused .noPacket
  | .sendMotorPower x => s.onAccept Opcode.sendMotorPower x fun s => s.afterBoot fun s =>
      .next { s.buildPacket s.arg with phase := .table .preTx }
  | .unassigned o x => exec (.unassigned o x) s
  | .tblEnd => exec .tblEnd s
  | .txn data => exec (.txn data) s
  | .strobe c => exec (.strobe c) s
  | .wreg pairs => exec (.wreg pairs) s
  | .burst header values => exec (.burst header values) s

/-- With no command in progress: the next command word begins, or the machine stays idle if there is none
(R40, R245, R274; log 6). -/
def State.acceptStep (s : State) : Host.Outcome State Fault Refusal :=
  match s.pending with
  | [] => .next s
  | w :: later => State.begin (decodeCommand w) { s with pending := later }

/-- The walker's fetch at `TP` (R93, R151): a zero byte is `END`, which runs whole; any other is the length
of a `TXN`, which begins. A fetch outside the ROM is refused (R61). -/
def State.walkStep (w : Walk) (s : State) : Host.Outcome State Fault Refusal :=
  match s.rom.tblRead s.tp.toNat with
  | none => .refused .badTable
  | some n => if n = 0#8 then exec .tblEnd s else .next (s.fetchLength n w)

/-- The command in progress takes its next atomic step (R29, R137). No run reaches `BUSY` = 1 with an idle
`PHASE`; there the machine stays as it is (log 14). -/
def State.busyStep (s : State) : Host.Outcome State Fault Refusal :=
  match s.phase with
  | .idle => .next s
  | .configure => .next { s.busConfigure with phase := .pinMode }
  | .pinMode => .next { s.pinOutput with phase := .pinHigh }
  | .pinHigh => .next { s.pinHigh with phase := .frame .status }
  | .frame f => .next { s.csAssert with phase := .send f 0 }
  | .send f k => .next (s.sendStep f k)
  | .close c => .next (s.closeStep c)
  | .table w => s.tableStep w
  | .walk w => s.walkStep w
  | .select w => .next { s.csAssert with phase := .data w }
  | .data w => s.dataStep w
  | .deselect w => .next { s.csDeassert with phase := .walk w }

end Sys2Proof.Machine
end

