-- ==== Sys2Proof/Machine/Step.lean ====
section
/-! DEFINITION. One atomic step of the machine (40_bus_primitives.md R137, D5). With `BUSY` = 0 the host's
next command word is accepted (R40); with `BUSY` = 1 the command in progress takes its next step where
`PHASE` says (R29). A step adds at most one event to the trace. -/

namespace Sys2Proof.Machine

/-- One step. -/
def step (s : State) : Host.Outcome State Fault Refusal :=
  if s.busy then s.busyStep else s.acceptStep

/-- The state whose next step begins the instruction that a table row's bits stand for (log 12). -/
def State.withFetchWord (s : State) (nbits w : Nat) : State :=
  if nbits = 16 then s.placeCommand (BitVec.ofNat 16 w)
  else s.placeEntry (tableRowBytes nbits w)

end Sys2Proof.Machine
end

