-- ==== Sys2Proof/Safety.lean ====
section
/-! DEFINITION. The words claims are stated in: what the events of a trace say (40_bus_primitives.md
R134, R135), and the invariant of the machine. -/

namespace Sys2Proof.Machine

/-! ### Events -/

/-- The events of one frame that sends `outs` and receives `ins` (R134). -/
def frameEvents (outs ins : List Byte) : List Event :=
  .pin false :: (List.zipWith Event.xfer outs ins ++ [.pin true])

/-- What the sequencer asks for in an event, without the radio's byte (R157: "the `in` components of
the `XFER` events may differ; they are the radio's"). -/
inductive Request where
  | cfg (order : BitOrder) (mode : BusMode) (div : Nat)
  | pinMode
  | pin (level : Bool)
  | send (out : Byte)
  deriving DecidableEq, Repr

/-- The request of an event. -/
def Event.request : Event → Request
  | .cfg o m d => .cfg o m d
  | .pinMode => .pinMode
  | .pin l => .pin l
  | .xfer out _ => .send out

/-- The requests of one frame of these bytes (R134). -/
def frameRequests (outs : List Byte) : List Request :=
  .pin false :: (outs.map Request.send ++ [.pin true])

/-- The requests of a walk of a table with these entries (R151, R152). -/
def tableRequests (entries : List (List Byte)) : List Request := entries.flatMap frameRequests

/-- The requests of the events that `t` has and `s` did not have. -/
def newRequests (s t : State) : List Request := (t.trace.drop s.trace.length).map Event.request

/-- The events of a walk of a table with these entries, the replies being `ins` (R151, R152). -/
def tableEvents : List (List Byte) → List Byte → List Event
  | [], _ => []
  | data :: entries, ins =>
    frameEvents data (ins.take data.length) ++ tableEvents entries (ins.drop data.length)

/-- How many bytes a walk of a table with these entries sends (R159). -/
def tableTransfers (entries : List (List Byte)) : Nat := (entries.map List.length).sum

/-- The requests of a RESET before its INIT table: the bus, the pin, and `polls` status frames (R180). -/
def bootRequests (p : Params) (polls : Nat) : List Request :=
  [.cfg p.busBitOrder p.busMode p.busClkdiv, .pinMode, .pin true] ++
    (List.replicate polls (frameRequests [0x80#8, p.dummyOut])).flatten

/-- The requests of a transmit of the packet with these bytes (R200). -/
def transmitRequests (p : Params) (packet : List Byte) : List Request :=
  frameRequests [p.cmdSftx] ++ frameRequests [p.cmdSidle] ++
    frameRequests (p.cmdTxfifoBurst :: packet) ++ frameRequests [p.cmdStx]

/-- `s` after one table entry with these data bytes: one frame, `TP` past the entry, `CNT` 0 (R152). -/
def State.afterEntry (data : List Byte) (s : State) : State :=
  { s with
    tp := s.tp + BitVec.ofNat 16 (1 + data.length)
    cnt := 0#8
    csN := true
    replies := s.replies.drop data.length
    drawn := s.drawn + data.length
    trace := s.trace ++ frameEvents data (s.nextReplies data.length) }

/-- `s` after a walk of the table with these entries at `base` (R151 to R154). -/
def State.afterWalk (base : TableAddr) (entries : List (List Byte)) (s : State) : State :=
  { s with
    tp := base + BitVec.ofNat 16 (tableLength entries)
    cnt := if entries = [] then s.cnt else 0#8
    csN := if entries = [] then s.csN else true
    replies := s.replies.drop (tableTransfers entries)
    drawn := s.drawn + tableTransfers entries
    trace := s.trace ++ tableEvents entries (s.nextReplies (tableTransfers entries)) }

/-- `s` after a frame that sends these bytes (R134). -/
def State.afterFrame (outs : List Byte) (s : State) : State :=
  { s with
    csN := true
    replies := s.replies.drop outs.length
    drawn := s.drawn + outs.length
    trace := s.trace ++ frameEvents outs (s.nextReplies outs.length) }

/-- `s` after the first two steps of a RESET that was accepted with this operand (R180). -/
def State.afterPinInit (operand : Byte) (s : State) : State :=
  { s with
    op := Opcode.reset
    arg := operand
    busy := true
    csOe := true
    csN := true
    inited := true
    trace := s.trace ++
      [.cfg s.params.busBitOrder s.params.busMode s.params.busClkdiv, .pinMode, .pin true] }

/-- Is the event a byte exchange? -/
def Event.isXfer : Event → Bool
  | .cfg _ _ _ => false
  | .pinMode => false
  | .pin _ => false
  | .xfer _ _ => true

/-- How many byte exchanges a trace shows. -/
def xferCount (tr : List Event) : Nat := tr.countP Event.isXfer

/-! ### Chip-select discipline (R135) -/

/-- Where the bus stands after a prefix of the trace. -/
inductive BusPos where
  /-- between frames, chip-select high -/
  | rest
  /-- a RESET has configured the bus -/
  | configured
  /-- and made the pin an output -/
  | output
  /-- chip-select low, no byte yet -/
  | selected
  /-- chip-select low, at least one byte exchanged -/
  | moving
  deriving DecidableEq, Repr

/-- The next position, none where the event breaks the discipline: a RESET opens with `CFG PINMODE
PIN(1)`, a frame is `PIN(0)`, one or more `XFER`, `PIN(1)`, and nothing else happens (R135, R180). -/
def BusPos.next (p : BusPos) (e : Event) : Option BusPos :=
  match p, e with
  | .rest, .cfg _ _ _ => some .configured
  | .configured, .pinMode => some .output
  | .output, .pin true => some .rest
  | .rest, .pin false => some .selected
  | .selected, .xfer _ _ => some .moving
  | .moving, .xfer _ _ => some .moving
  | .moving, .pin true => some .rest
  | _, _ => none

/-- The position after a trace that began at `p`. -/
def busPos (p : BusPos) : List Event → Option BusPos
  | [] => some p
  | e :: es =>
    match p.next e with
    | some q => busPos q es
    | none => none

/-- Where the bus stands when the step that `PHASE` names is due. -/
def Phase.stands (p : Phase) (q : BusPos) : Bool :=
  match p with
  | .idle => q = .rest
  | .configure => q = .rest
  | .pinMode => q = .configured
  | .pinHigh => q = .output
  | .frame _ => q = .rest
  | .send _ k => q = if k = 0 then .selected else .moving
  | .close _ => q = .moving
  | .table _ => q = .rest
  | .walk _ => q = .rest
  | .select _ => q = .rest
  | .data _ => q = .selected || q = .moving
  | .deselect _ => q = .moving

/-- The trace keeps the chip-select discipline and stands where `PHASE` says (R135). -/
def Disciplined (tr : List Event) (p : Phase) : Prop :=
  ∃ q, busPos .rest tr = some q ∧ p.stands q = true

/-! ### The invariant -/

/-- `PKT` holds a built packet (R191): fixed bytes fixed, motor bytes equal. -/
def Packet.wellBuilt (k : Packet) : Prop := k = packetOf k.motorA

/-- Positions inside a frame: chip-select is low. -/
def Phase.inFrame : Phase → Bool
  | .send _ _ => true
  | .close _ => true
  | .data _ => true
  | .deselect _ => true
  | _ => false

/-- Positions that are possible before the first RESET has set `INITED`. -/
def Phase.beforeBoot : Phase → Bool
  | .idle => true
  | .configure => true
  | .pinMode => true
  | .pinHigh => true
  | _ => false

/-- Which command a walk belongs to (R150, R184, R194, R196). -/
def Walk.command (w : Walk) (op : Byte) : Bool :=
  match w with
  | .apply => op = Opcode.applyTable
  | .init => op = Opcode.reset
  | .preTx => op = Opcode.transmitPacket || op = Opcode.sendMotorPower
  | .postLoad => op = Opcode.transmitPacket || op = Opcode.sendMotorPower

/-- Which command a frame belongs to. -/
def FrameKind.command (f : FrameKind) (op : Byte) : Bool :=
  match f with
  | .status => op = Opcode.reset
  | .readReg => op = Opcode.readReg
  | .readStatus => op = Opcode.readStatus
  | .fifo => op = Opcode.transmitPacket || op = Opcode.sendMotorPower

/-- `PHASE` is a position of the command that `OP` names (R28, R29). -/
def Phase.command (p : Phase) (op : Byte) : Bool :=
  match p with
  | .idle => true
  | .configure => op = Opcode.reset
  | .pinMode => op = Opcode.reset
  | .pinHigh => op = Opcode.reset
  | .frame f => f.command op
  | .send f _ => f.command op
  | .close (.poll _) => op = Opcode.reset
  | .close (.keep _) => op = Opcode.readReg || op = Opcode.readStatus
  | .close .drop => op = Opcode.transmitPacket || op = Opcode.sendMotorPower
  | .table w => w.command op
  | .walk w => w.command op
  | .select w => w.command op
  | .data w => w.command op
  | .deselect w => w.command op

/-- The ROM holds these bytes from address `a` up. -/
def TableRom.spells (r : TableRom) (a : Nat) (bytes : List Byte) : Prop :=
  ∀ k b, bytes[k]? = some b → r.tblRead (a + k) = some b

/-- Entries that a length byte can announce (R91). -/
def entriesOk (entries : List (List Byte)) : Prop := ∀ d ∈ entries, 1 ≤ d.length ∧ d.length ≤ 255

/-- `TP` stands at the length byte of a well-formed rest of a table (R24). -/
def State.atEntry (s : State) : Prop :=
  ∃ entries, entriesOk entries ∧ s.rom.spells s.tp.toNat (tableBytes entries)

/-- `TP` stands at the next of the `CNT` data bytes that are still to be sent, with a well-formed rest of
the table after them (R23, R24). -/
def State.inEntry (s : State) : Prop :=
  ∃ data entries, data.length = s.cnt.toNat ∧ data ≠ [] ∧ entriesOk entries ∧
    s.rom.spells s.tp.toNat (data ++ tableBytes entries)

/-- What a position says of the registers its step reads. -/
def State.placed (s : State) : Prop :=
  match s.phase with
  | .send f k => k < (s.frameBytes f).length
  | .table w => (s.walkBase w).isSome = true
  | .walk _ => s.atEntry
  | .select _ => s.inEntry
  | .data _ => s.inEntry
  | .deselect _ => s.atEntry ∧ s.cnt = 0#8
  | _ => True

/-- What holds between the atomic steps of every run. -/
structure State.Inv (s : State) : Prop where
  /-- `BUSY` is 1 exactly while `PHASE` is not idle (R27, R29) -/
  busyPhase  : s.busy = true ↔ s.phase ≠ .idle
  /-- `PHASE` is a position of the command in progress (R28, R29) -/
  command    : s.phase.command s.op = true
  /-- `TP`, `CNT` and `ARG` are as the position needs them (R23, R24, R150) -/
  placed     : s.placed
  /-- the ROM holds the three tables (R158, R211 to R214, R217) -/
  layout     : s.rom.layoutOk s.params
  /-- the ROM is in its canonical form -/
  romWf      : s.rom.cells.wf
  /-- after the first RESET the pin is an output, low exactly inside a frame (R135, R264, R270) -/
  chipSelect : s.inited = true → s.csOe = true ∧ s.csN = !s.phase.inFrame
  /-- the pin is made an output before it is driven high (R182) -/
  pinOutput  : s.phase = .pinHigh → s.csOe = true
  /-- before that only a RESET can be in progress, and no byte has been exchanged (R32, R262) -/
  boot       : s.inited = false → s.phase.beforeBoot = true ∧ xferCount s.trace = 0
  /-- a valid packet is a built one (R191) -/
  packet     : s.pktValid = true → s.pkt.wellBuilt
  /-- a transmit in progress has a packet (R193) -/
  sending    : FrameKind.fifo.command s.op = true → s.busy = true → s.pktValid = true
  /-- the trace keeps the chip-select discipline (R135) -/
  discipline : Disciplined s.trace s.phase
  /-- every exchange in the trace has been counted (R44, R70) -/
  counted    : xferCount s.trace ≤ s.drawn

/-! ### How many atomic steps -/

/-- The atomic steps of a walk of a table with these entries: for each entry the fetch of its length,
chip-select low, its bytes, chip-select high; and the fetch of the terminator (R137, R151, R152; log 7). -/
def tableSteps (entries : List (List Byte)) : Nat := (entries.map fun d => d.length + 3).sum + 1

/-- The atomic steps of a status frame: chip-select low, two bytes, chip-select high (R137, R183). -/
abbrev statusSteps : Nat := 4

end Sys2Proof.Machine
end

