-- ==== Sys2Proof/Certificates/Slice0/Obligations.lean ====
section
/-! DEFINITION. The statements for the provers. They are about every state, so about every ROM, every
value of every open parameter and every radio (logs 3, 4, 5). Where a statement rests on a decision of
the spec or of the model, its docstring names it. -/

open Sys2Proof Sys2Proof.Machine

/-! ### Encoding -/

/-- Every well-formed instruction decodes from its own encoding, with every operand kept; a
pseudo-instruction decodes as the TXN it abbreviates (R91, R92, R96, R97, R103). Opcode numbers are the
spec's decision D2; the constructors of the pseudo-instructions are log 10. -/
def Obligations.DecodeOfEncodeGivesTheInstruction : Prop :=
  ∀ i, WellFormed i → decode (encode i) = .ok (expand i)

/-- Every 16-bit word decodes to a well-formed command, and encoding that gives the word back: no bit of
the word is dropped and no two words are one instruction (R96, R97, R99; decisions D2, D4). -/
def Obligations.EveryCommandWordReencodes : Prop :=
  ∀ w : CmdWord, WellFormed (decodeCommand w) ∧ encode (decodeCommand w) = .command w

/-- Whatever the table decoder accepts is a well-formed END or TXN whose encoding is exactly the bytes it
took, in front of the bytes it left (R91 to R93). -/
def Obligations.AcceptedTableBytesReencode : Prop :=
  ∀ bytes i rest, decodeEntry bytes = .ok (i, rest) →
    WellFormed i ∧ (i = .tblEnd ∨ ∃ data, i = .txn data) ∧
      ∃ own, encode i = .entry own ∧ own ++ rest = bytes

/-- Words written out from the encoding tables decode as the tables say (R97, R91, R92; opcode numbers
are decision D2). -/
def Obligations.HandWrittenWordsDecode : Prop :=
  decodeCommand 0b0000000110101011#16 = .reset 0xAB#8 ∧
  decodeCommand 0b0000001000000010#16 = .applyTable 2#8 ∧
  decodeCommand 0b0000001100110001#16 = .readReg 0x31#8 ∧
  decodeCommand 0b0000010000000000#16 = .readStatus 0#8 ∧
  decodeCommand 0b0000010101000000#16 = .buildPacket 0x40#8 ∧
  decodeCommand 0b0000011000000000#16 = .transmitPacket 0#8 ∧
  decodeCommand 0b0000011110000001#16 = .sendMotorPower 0x81#8 ∧
  decodeCommand 0b0000100000000000#16 = .unassigned 0x08#8 0#8 ∧
  decode (.entry [0b00000000#8]) = .ok .tblEnd ∧
  decode (.entry [0b00000010#8, 0b00001010#8, 0b00000001#8]) = .ok (.txn [0x0A#8, 0x01#8])

/-! ### The table language -/

/-- R92: the terminator is the single byte 0x00 where a length byte is due; it takes one byte, has no data
bytes, ends the walk in progress and makes no bus activity. -/
def Obligations.TerminatorIsOneSilentZeroByte : Prop :=
  (∀ rest : List Byte, decodeEntry (0x00#8 :: rest) = .ok (.tblEnd, rest)) ∧
  ∀ (s : State) (w : Walk), s.busy = true → s.phase = .walk w →
    ∃ t, exec .tblEnd s = .next t ∧ t.tp = s.tp + 1#16 ∧ t.trace = s.trace ∧ ∀ w', t.phase ≠ .walk w'

/-- END returns to the command whose table is being walked and changes nothing else: APPLY_TABLE's table and
INIT complete their commands, PRE_TX is followed by the FIFO load, POST_LOAD uses the packet up and
completes (R150, R153, R184, R193). The positions are those of the model's PHASE (log 7); outside a walk END
only moves `TP` (log 13). -/
def Obligations.EndReturnsToTheCommandInProgress : Prop :=
  ∀ s : State,
    (s.phase = .walk .apply ∨ s.phase = .walk .init →
      exec .tblEnd s = .next { s with tp := s.tp + 1#16, busy := false, phase := .idle }) ∧
    (s.phase = .walk .preTx →
      exec .tblEnd s = .next { s with tp := s.tp + 1#16, phase := .frame .fifo }) ∧
    (s.phase = .walk .postLoad →
      exec .tblEnd s =
        .next { s with tp := s.tp + 1#16, pktValid := false, busy := false, phase := .idle }) ∧
    ((∀ w, s.phase ≠ .walk w) → exec .tblEnd s = .next { s with tp := s.tp + 1#16 })

/-- A length byte N of 1 to 255 and N data bytes are one TXN of 1 + N bytes, whatever the data are; in a
walk, all N are sent in order inside one chip-select assertion, and nothing but `TP`, `CNT`, `CS_N`, the
trace and the radio's tape changes (R91, R131, R152). -/
def Obligations.EntrySendsItsDataInOneFrame : Prop :=
  ∀ data : List Byte, 1 ≤ data.length → data.length ≤ 255 →
    (∀ rest, decodeEntry (BitVec.ofNat 8 data.length :: (data ++ rest)) = .ok (.txn data, rest)) ∧
    ∀ (s : State) (w : Walk), s.busy = true → s.phase = .walk w →
      exec (.txn data) s = .next
        { s with
          tp := s.tp + BitVec.ofNat 16 (1 + data.length)
          cnt := 0#8
          csN := true
          replies := s.replies.drop data.length
          drawn := s.drawn + data.length
          trace := s.trace ++
            (.pin false :: (List.zipWith Event.xfer data (s.nextReplies data.length) ++ [.pin true])) }

/-- In a walk, a well-formed STROBE, WREG or BURST runs as the one TXN it abbreviates (R91, R103, R152;
log 10). -/
def Obligations.PseudoInstructionsRunAsOneEntry : Prop :=
  ∀ (s : State) (w : Walk), s.busy = true → s.phase = .walk w →
    (∀ c, exec (.strobe c) s = .next (s.afterEntry [c])) ∧
    (∀ pairs, WellFormed (.wreg pairs) →
      exec (.wreg pairs) s = .next (s.afterEntry (pairs.flatMap fun p => [p.1, p.2]))) ∧
    (∀ header values, WellFormed (.burst header values) →
      exec (.burst header values) s = .next (s.afterEntry (header :: values)))

/-- A table has exactly the entries its bytes in the ROM spell, each of 1 to 255 data bytes, with the
terminator inside the ROM; a table that spells none is not well formed (R90, R158; decision D16, log 15). -/
def Obligations.TableIsWhatItsBytesSpell : Prop :=
  ∀ (r : TableRom) (base : TableAddr) (entries : List (List Byte)),
    r.table base = some entries ↔
      (∀ d ∈ entries, 1 ≤ d.length ∧ d.length ≤ 255) ∧
      ∀ k b, (tableBytes entries)[k]? = some b → r.tblRead (base.toNat + k) = some b

/-- R156: only the bytes up to the first terminator reached matter. A ROM that agrees with another on them
holds the same table at that base, and a walk of it does the same. -/
def Obligations.FirstTerminatorEndsTheTable : Prop :=
  ∀ (r r' : TableRom) (base : TableAddr) (entries : List (List Byte)),
    r.table base = some entries →
    (∀ a, base.toNat ≤ a → a < base.toNat + tableLength entries → r'.tblRead a = r.tblRead a) →
    r'.table base = some entries ∧
    ∀ s : State, State.applyTable base { s with rom := r' } =
      (State.applyTable base { s with rom := r }).map fun t => { t with rom := r' }

/-- R157: two walks of the same table ask the bus for the same things in the same order, whatever the rest
of the state is and whatever the radio replies. -/
def Obligations.ReplayOfATableIsPure : Prop :=
  ∀ (s s' t : State) (base : TableAddr), s'.rom = s.rom → s.applyTable base = some t →
    ∃ t', s'.applyTable base = some t' ∧ newRequests s' t' = newRequests s t

/-- A walk of k entries makes k frames, one transfer per data byte, and two events more per frame, and no
more (R159). -/
def Obligations.WalkDoesExactlyTheWorkOfItsEntries : Prop :=
  ∀ (s t : State) (base : TableAddr) (entries : List (List Byte)),
    s.rom.table base = some entries → s.applyTable base = some t →
    ∃ es, t.trace = s.trace ++ es ∧ xferCount es = tableTransfers entries ∧
      es.count (.pin false) = entries.length ∧
      es.length = tableTransfers entries + 2 * entries.length

/-! ### The bus -/

/-- A frame of one byte or more: chip-select low, the bytes in order, chip-select high; as many replies as
bytes; L + 2 events; nothing else changes (R134). -/
def Obligations.FrameIsOneSelectedRunOfTransfers : Prop :=
  ∀ (outs : List Byte) (s : State), outs ≠ [] →
    (s.frame outs).1 = s.nextReplies outs.length ∧
    (s.frame outs).2 =
      { s with
        csN := true
        replies := s.replies.drop outs.length
        drawn := s.drawn + outs.length
        trace := s.trace ++
          (.pin false :: (List.zipWith Event.xfer outs (s.nextReplies outs.length) ++ [.pin true])) } ∧
    (s.frame outs).2.trace.length = s.trace.length + outs.length + 2

/-- The two bit operations of the block (R12): the read header keeps bits 6 to 0 of the address and sets
bit 7; the chip is ready exactly when bit 7 of the status byte is 0. Keeping all eight bits is decision
D11. -/
def Obligations.ReadBitAndReadyFlagAreBitSeven : Prop :=
  ∀ a : Byte, (∀ k, k < 8 → (readHeader a).getLsbD k = (a.getLsbD k || k == 7)) ∧
    chipReady a = !a.getLsbD 7

/-! ### Register and status reads -/

/-- READ_REG after boot: one frame of the address with the read bit and the dummy byte, the second reply in
`RES`, and nothing else but `OP`, `ARG`, the trace and the radio's tape (R170; decisions D10, D11). -/
def Obligations.ReadRegKeepsTheSecondReply : Prop :=
  ∀ (addr : Byte) (s : State), s.busy = false → s.inited = true →
    exec (.readReg addr) s = .next
      { s with
        op := 0x03#8
        arg := addr
        res := s.replyAt 1
        busy := false
        phase := .idle
        csN := true
        replies := s.replies.drop 2
        drawn := s.drawn + 2
        trace := s.trace ++ [.pin false, .xfer (addr ||| 0x80#8) (s.replyAt 0),
          .xfer s.params.dummyOut (s.replyAt 1), .pin true] }

/-- READ_STATUS after boot: one frame of 0x80 and the dummy byte, the second reply in `RES`, and nothing
else but `OP`, `ARG`, the trace and the radio's tape (R171; decision D10). -/
def Obligations.ReadStatusKeepsTheSecondReply : Prop :=
  ∀ (operand : Byte) (s : State), s.busy = false → s.inited = true →
    exec (.readStatus operand) s = .next
      { s with
        op := 0x04#8
        arg := operand
        res := s.replyAt 1
        busy := false
        phase := .idle
        csN := true
        replies := s.replies.drop 2
        drawn := s.drawn + 2
        trace := s.trace ++ [.pin false, .xfer 0x80#8 (s.replyAt 0),
          .xfer s.params.dummyOut (s.replyAt 1), .pin true] }

/-- R113: what reaches `RES` is the kept reply itself, bit for bit. -/
def Obligations.KeptReplyReachesResUnchanged : Prop :=
  ∀ (operand : Byte) (s : State), s.busy = false → s.inited = true →
    (∃ t, exec (.readReg operand) s = .next t ∧ t.res = s.replyAt 1) ∧
    (∃ t, exec (.readStatus operand) s = .next t ∧ t.res = s.replyAt 1)

/-- R174: each read makes exactly one frame of exactly two transfers and then completes, whatever the
replies are. -/
def Obligations.ReadsMakeOneFrameOfTwoTransfers : Prop :=
  ∀ (operand : Byte) (s : State) (i : Instr), s.busy = false → s.inited = true →
    i = .readReg operand ∨ i = .readStatus operand →
    ∃ t o0 o1, exec i s = .next t ∧ t.busy = false ∧
      t.trace = s.trace ++
        [.pin false, .xfer o0 (s.replyAt 0), .xfer o1 (s.replyAt 1), .pin true]

/-- READ_STATUS and READ_REG 0 make the same frame and leave the same result (R172). -/
def Obligations.ReadStatusIsReadRegZeroOnTheBus : Prop :=
  ∀ (operand : Byte) (s : State), s.busy = false → s.inited = true →
    ∃ t u, exec (.readStatus operand) s = .next t ∧ exec (.readReg 0#8) s = .next u ∧
      t.trace = u.trace ∧ t.res = u.res

/-! ### The packet framer -/

/-- R190: BUILD_PACKET fills the packet buffer with 01 00 A5 P P 00 00 05 for every power P, sets
`PKT_VALID`, clears `BUSY` and makes no event, whether or not a RESET has run. -/
def Obligations.BuildPacketFillsTheBuffer : Prop :=
  ∀ (power : Byte) (s : State),
    decodeCommand (commandWord 0x05#8 power) = .buildPacket power ∧
    (s.busy = false → ∃ t, exec (.buildPacket power) s = .next t ∧
      t.pkt.bytes = [0x01#8, 0x00#8, 0xA5#8, power, power, 0x00#8, 0x00#8, 0x05#8] ∧
      t.pktValid = true ∧ t.busy = false ∧ t.trace = s.trace)

/-- The frame of BUILD_PACKET: apart from the packet, `PKT_VALID`, `OP` and `ARG` an idle machine is left
as it was (R190, R25). -/
def Obligations.BuildPacketTouchesNothingElse : Prop :=
  ∀ (power : Byte) (s : State), s.busy = false → s.phase = .idle →
    ∃ t, exec (.buildPacket power) s = .next t ∧
      { t with pkt := s.pkt, pktValid := s.pktValid, op := s.op, arg := s.arg } = s

/-- R195: the FIFO load is one frame of nine transfers, the header and then the eight packet bytes in
order; the replies are dropped and nothing is checked. -/
def Obligations.FifoLoadIsOneFrameOfNineTransfers : Prop :=
  ∀ s : State, s.loadFifo =
    { s with
      csN := true
      replies := s.replies.drop 9
      drawn := s.drawn + 9
      trace := s.trace ++ [.pin false, .xfer s.params.cmdTxfifoBurst (s.replyAt 0),
        .xfer s.pkt.fix0 (s.replyAt 1), .xfer s.pkt.fix1 (s.replyAt 2), .xfer s.pkt.fix2 (s.replyAt 3),
        .xfer s.pkt.motorA (s.replyAt 4), .xfer s.pkt.motorB (s.replyAt 5), .xfer s.pkt.fix5 (s.replyAt 6),
        .xfer s.pkt.fix6 (s.replyAt 7), .xfer s.pkt.fix7 (s.replyAt 8), .pin true] }

/-- R196: applying POST_LOAD, a one-entry table, makes exactly the transmit strobe's frame. -/
def Obligations.PostLoadIsTheTransmitStrobe : Prop :=
  ∀ s : State, s.rom.table s.rom.postLoadBase = some [[s.params.cmdStx]] →
    ∃ t, s.applyTable s.rom.postLoadBase = some t ∧
      t.trace = s.trace ++ [.pin false, .xfer s.params.cmdStx (s.replyAt 0), .pin true]

/-- TRANSMIT_PACKET with a packet, after boot, on a ROM that holds the two transmit tables: flush strobe,
idle strobe, FIFO load, transmit strobe, twelve transfers and twenty events, the packet used up, and
nothing else changed (R193 to R196, R199, R200; decisions D13, D17). -/
def Obligations.TransmitSendsFourFramesAndUsesThePacket : Prop :=
  ∀ (operand : Byte) (s : State), s.busy = false → s.inited = true → s.pktValid = true →
    s.rom.holdsTransmitTables s.params →
    exec (.transmitPacket operand) s = .next
      { s with
        op := 0x06#8
        arg := operand
        cnt := 0#8
        tp := s.rom.postLoadBase + 3#16
        pktValid := false
        busy := false
        phase := .idle
        csN := true
        replies := s.replies.drop 12
        drawn := s.drawn + 12
        trace := s.trace ++
          (frameEvents [s.params.cmdSftx] [s.replyAt 0] ++
           frameEvents [s.params.cmdSidle] [s.replyAt 1] ++
           frameEvents (s.params.cmdTxfifoBurst :: s.pkt.bytes)
             [s.replyAt 2, s.replyAt 3, s.replyAt 4, s.replyAt 5, s.replyAt 6, s.replyAt 7, s.replyAt 8,
              s.replyAt 9, s.replyAt 10] ++
           frameEvents [s.params.cmdStx] [s.replyAt 11]) }

/-- SEND_MOTOR_POWER after boot on such a ROM, for every power, above 0x80 too: the packet of that power is
in the buffer and has been sent in the four frames of a transmit, `PKT_VALID` is 0, and nothing else has
changed (R192, R198, R200; decisions D13, D17, D19). -/
def Obligations.SendMotorPowerSendsThePacketOfItsPower : Prop :=
  ∀ (power : Byte) (s : State), s.busy = false → s.inited = true →
    s.rom.holdsTransmitTables s.params →
    ∃ t, exec (.sendMotorPower power) s = .next t ∧
      newRequests s t = transmitRequests s.params
        [0x01#8, 0x00#8, 0xA5#8, power, power, 0x00#8, 0x00#8, 0x05#8] ∧
      t = { s with
        op := 0x07#8
        arg := power
        cnt := 0#8
        tp := s.rom.postLoadBase + 3#16
        pkt := ⟨0x01#8, 0x00#8, 0xA5#8, power, power, 0x00#8, 0x00#8, 0x05#8⟩
        pktValid := false
        busy := false
        phase := .idle
        csN := true
        replies := s.replies.drop 12
        drawn := s.drawn + 12
        trace := t.trace }

/-- SEND_MOTOR_POWER is BUILD_PACKET and then TRANSMIT_PACKET: it answers a next state exactly when those
two do, and the same one but for `OP` (R198). -/
def Obligations.SendMotorPowerIsBuildThenTransmit : Prop :=
  ∀ (power : Byte) (s t : State), s.busy = false → s.inited = true →
    (exec (.sendMotorPower power) s = .next t ↔
      ∃ b u, exec (.buildPacket power) s = .next b ∧ exec (.transmitPacket power) b = .next u ∧
        t = { u with op := 0x07#8 })

/-! ### APPLY_TABLE -/

/-- APPLY_TABLE with id 0, 1 or 2 after boot walks INIT, PRE_TX or POST_LOAD, every entry one frame in
order, and completes; nothing but `TP`, `CNT`, `CS_N`, `OP`, `ARG`, the trace and the radio's tape changes
(R150 to R154; decision D15). -/
def Obligations.ApplyTableWalksTheChosenTable : Prop :=
  ∀ (id : Byte) (s : State) (base : TableAddr) (entries : List (List Byte)),
    s.busy = false → s.inited = true →
    (id = 0#8 ∧ base = s.rom.initBase ∨ id = 1#8 ∧ base = s.rom.preTxBase ∨
      id = 2#8 ∧ base = s.rom.postLoadBase) →
    s.rom.table base = some entries →
    exec (.applyTable id) s = .next
      { s with
        op := 0x02#8
        arg := id
        tp := base + BitVec.ofNat 16 (tableLength entries)
        cnt := if entries = [] then s.cnt else 0#8
        csN := if entries = [] then s.csN else true
        busy := false
        phase := .idle
        replies := s.replies.drop (tableTransfers entries)
        drawn := s.drawn + tableTransfers entries
        trace := s.trace ++ tableEvents entries (s.nextReplies (tableTransfers entries)) }

/-! ### RESET -/

/-- RESET on a chip that is ready at the first poll: the bus configured, the pin made an output and high,
one status frame, the INIT table walked, and the command complete; `RES`, `PKT` and `PKT_VALID` untouched
(R180 to R184, R186; decisions D7, D8, D10, D22). -/
def Obligations.ResetOfAReadyChipSendsInit : Prop :=
  ∀ (operand : Byte) (s : State) (entries : List (List Byte)),
    s.busy = false → (s.replyAt 1).getLsbD 7 = false → s.rom.table s.rom.initBase = some entries →
    exec (.reset operand) s = .next
      { ((s.afterPinInit operand).afterFrame [0x80#8, s.params.dummyOut]).afterWalk s.rom.initBase entries
        with busy := false, phase := .idle }

/-- RESET on a chip that is not ready at the first poll: the bus and pin steps and one status frame have
been made, `BUSY` is 1 and another status frame is due; no table byte has been sent (R180, R183; that
`exec` answers after the first status frame is log 7). -/
def Obligations.ResetOfABusyChipKeepsPolling : Prop :=
  ∀ (operand : Byte) (s : State), s.busy = false → (s.replyAt 1).getLsbD 7 = true →
    exec (.reset operand) s = .next
      { (s.afterPinInit operand).afterFrame [0x80#8, s.params.dummyOut] with phase := .frame .status }

/-- The ready poll: from where a status frame is due, its four atomic steps make one status frame; a chip
that is ready then gets the INIT table and RESET completes, one that is not has the next status frame due
(R183, R184; the number of steps is log 7). -/
def Obligations.PollMakesOneStatusFrame : Prop :=
  ∀ s : State, s.busy = true → s.phase = .frame .status →
    ((s.replyAt 1).getLsbD 7 = true →
      Sys2Proof.core.run statusSteps s = .next (s.afterFrame [0x80#8, s.params.dummyOut])) ∧
    (∀ entries, (s.replyAt 1).getLsbD 7 = false → s.rom.table s.rom.initBase = some entries →
      Sys2Proof.core.run (statusSteps + 1 + tableSteps entries) s = .next
        { (s.afterFrame [0x80#8, s.params.dummyOut]).afterWalk s.rom.initBase entries with
          busy := false, phase := .idle })

/-- A RESET presented to an idle machine completes with as many status frames as the radio takes: if the
first n status bytes have bit 7 set and the next has it clear, then after the steps of acceptance, of the
bus and the pin, of n + 1 status frames and of the INIT table, `BUSY` is 0 and what has been asked of the bus
is the two boot steps, n + 1 status frames and the INIT table, and the result register and the packet are as
they were (R180, R183, R184, R186; the number of steps is log 7). -/
def Obligations.ResetCompletesOnceTheChipIsReady : Prop :=
  ∀ (n : Nat) (s : State) (operand : Byte) (later : List CmdWord) (entries : List (List Byte)),
    s.busy = false → s.pending = commandWord 0x01#8 operand :: later →
    (∀ k, k < n → (s.replyAt (2 * k + 1)).getLsbD 7 = true) →
    (s.replyAt (2 * n + 1)).getLsbD 7 = false →
    s.rom.table s.rom.initBase = some entries →
    ∃ t, Sys2Proof.core.run (4 + statusSteps * (n + 1) + 1 + tableSteps entries) s = .next t ∧
      t.busy = false ∧ t.inited = true ∧ t.pending = later ∧
      t.res = s.res ∧ t.pkt = s.pkt ∧ t.pktValid = s.pktValid ∧
      newRequests s t = bootRequests s.params (n + 1) ++ tableRequests entries

/-- A chip that stays not ready keeps RESET from completing: at every step of any number of polls `BUSY` is
still 1, and after the n-th poll only n status frames have been made (R183, R231, R267; that a poll is four
steps is log 7). -/
def Obligations.ResetHangsWhileTheChipIsNotReady : Prop :=
  ∀ (n : Nat) (s : State), s.busy = true → s.phase = .frame .status →
    (∀ k, k < n → (s.replyAt (2 * k + 1)).getLsbD 7 = true) →
    (∀ m, m ≤ statusSteps * n →
      ∃ t, Sys2Proof.core.run m s = .next t ∧ t.busy = true ∧ t.pending = s.pending) ∧
    ∃ t, Sys2Proof.core.run (statusSteps * n) s = .next t ∧ t.phase = .frame .status ∧
      newRequests s t = (List.replicate n (frameRequests [0x80#8, s.params.dummyOut])).flatten

/-- Two RESETs that each complete at their first status frame ask the bus for the same things, whatever happened
between them and whatever the radio replied (R185). -/
def Obligations.ResetIsIdempotentOnTheBus : Prop :=
  ∀ (a b : Byte) (s s' t t' : State), s'.rom = s.rom → s'.params = s.params →
    s.busy = false → s'.busy = false →
    exec (.reset a) s = .next t → exec (.reset b) s' = .next t' → t.busy = false → t'.busy = false →
    newRequests s' t' = newRequests s t

/-! ### Refusals -/

/-- Before the first RESET the five commands that use the bus are refused (R32, R262; decision D21). -/
def Obligations.BusCommandsBeforeResetAreRefused : Prop :=
  ∀ (x : Byte) (s : State), s.busy = false → s.inited = false →
    exec (.applyTable x) s = .refused .beforeReset ∧
    exec (.readReg x) s = .refused .beforeReset ∧
    exec (.readStatus x) s = .refused .beforeReset ∧
    exec (.transmitPacket x) s = .refused .beforeReset ∧
    exec (.sendMotorPower x) s = .refused .beforeReset

/-- After boot, TRANSMIT_PACKET without a packet and APPLY_TABLE with an id above 2 are refused, and so is
every command whose table is not well formed: APPLY_TABLE of any of the three tables, TRANSMIT_PACKET and
SEND_MOTOR_POWER by PRE_TX or POST_LOAD, and RESET by INIT, at the first status frame that finds the chip
ready or at a later one (R99, R150, R158, R193; decisions D16, D17, D28; log 15; that a later poll and the start
of ApplyTable are the steps counted here is log 7). -/
def Obligations.RefusalsAfterBoot : Prop :=
  ∀ (x : Byte) (s : State), s.inited = true →
    (s.busy = false →
      (s.pktValid = false → exec (.transmitPacket x) s = .refused .noPacket) ∧
      (3 ≤ x.toNat → exec (.applyTable x) s = .refused .badTableId) ∧
      (∀ id base, (id = 0#8 ∧ base = s.rom.initBase ∨ id = 1#8 ∧ base = s.rom.preTxBase ∨
          id = 2#8 ∧ base = s.rom.postLoadBase) →
        s.rom.table base = none → exec (.applyTable id) s = .refused .badTable) ∧
      (s.rom.table s.rom.preTxBase = none ∨ s.rom.table s.rom.postLoadBase = none →
        exec (.sendMotorPower x) s = .refused .badTable ∧
        (s.pktValid = true → exec (.transmitPacket x) s = .refused .badTable)) ∧
      ((s.replyAt 1).getLsbD 7 = false → s.rom.table s.rom.initBase = none →
        exec (.reset x) s = .refused .badTable)) ∧
    (s.busy = true → s.phase = .frame .status → (s.replyAt 1).getLsbD 7 = false →
      s.rom.table s.rom.initBase = none →
      Sys2Proof.core.run (statusSteps + 1) s = .refused Refusal.badTable)

/-- A command word with opcode 0x00 or 0x08 to 0xFF decodes as unassigned and has no meaning in any state
(R99; decision D4, log 11). -/
def Obligations.UnassignedOpcodesAreRefused : Prop :=
  ∀ (opcode operand : Byte) (s : State), opcode.toNat = 0 ∨ 8 ≤ opcode.toNat →
    decodeCommand (commandWord opcode operand) = .unassigned opcode operand ∧
    exec (.unassigned opcode operand) s = .refused .badOpcode

/-! ### The step -/

/-- The steps run the decoded instruction. With no command in progress the next command word is taken off the
port, and the steps from there come to what `exec` of it answers, next state or refusal. In a table walk a
zero length byte is END, run in that very step, and a TXN that stands at `TP` is run by the fetch of its
length, chip-select low, its transfers and chip-select high. With nothing to run the machine stays as it is
(R40, R93, R137, R151, R152, R245; logs 6, 7). -/
def Obligations.StepRunsTheDecodedInstruction : Prop :=
  (∀ (s : State) (w : CmdWord) (later : List CmdWord), s.busy = false → s.pending = w :: later →
    (∀ t, exec (decodeCommand w) { s with pending := later } = .next t →
      ∃ n, Sys2Proof.core.run (n + 1) s = .next t) ∧
    ∀ r, exec (decodeCommand w) { s with pending := later } = .refused r →
      ∃ n, Sys2Proof.core.run (n + 1) s = .refused r) ∧
  (∀ (s : State) (w : Walk) (rest : List Byte), s.busy = true → s.phase = .walk w →
    decodeEntry (s.rom.bytesFrom tableWindow s.tp.toNat) = .ok (.tblEnd, rest) →
    step s = exec .tblEnd s) ∧
  (∀ (s : State) (w : Walk) (data rest : List Byte), s.busy = true → s.phase = .walk w →
    decodeEntry (s.rom.bytesFrom tableWindow s.tp.toNat) = .ok (.txn data, rest) →
    Sys2Proof.core.run (data.length + 3) s = exec (.txn data) s) ∧
  (∀ s : State, s.busy = false → s.pending = [] → step s = .next s)

/-- While `BUSY` is 1 no command is accepted: a step leaves the command port, `OP` and `ARG` alone, and a
command run there changes nothing (R40, R265; decision D3, log 8). -/
def Obligations.NothingIsAcceptedWhileBusy : Prop :=
  ∀ s : State, s.busy = true →
    (∀ t, step s = .next t → t.pending = s.pending ∧ t.op = s.op ∧ t.arg = s.arg) ∧
    ∀ x : Byte, exec (.reset x) s = .next s ∧ exec (.applyTable x) s = .next s ∧
      exec (.readReg x) s = .next s ∧ exec (.readStatus x) s = .next s ∧
      exec (.buildPacket x) s = .next s ∧ exec (.transmitPacket x) s = .next s ∧
      exec (.sendMotorPower x) s = .next s

/-- After boot, on a ROM that meets 45_tables.md, every assigned command with an operand the spec gives a
meaning, and for TRANSMIT_PACKET a packet, is accepted, and has its effect and is not refused (R246: "any of
the seven, any operand, at any time"; decisions D16, D17, D28). -/
def Obligations.AssignedCommandsRunAfterBoot : Prop :=
  ∀ (s : State) (w : CmdWord) (later : List CmdWord), s.busy = false → s.inited = true →
    s.rom.layoutOk s.params → s.pending = w :: later →
    1 ≤ (cmdOpcode w).toNat → (cmdOpcode w).toNat ≤ 7 →
    ((cmdOpcode w).toNat = 2 → (cmdOperand w).toNat ≤ 2) →
    ((cmdOpcode w).toNat = 6 → s.pktValid = true) →
    (∃ t, step s = .next t ∧ t.op = cmdOpcode w ∧ t.arg = cmdOperand w ∧ t.pending = later) ∧
    ∃ t, exec (decodeCommand w) { s with pending := later } = .next t

/-! ### What every step keeps -/

/-- The values the spec gives for hardware reset (R47, R260; decision D20). -/
def Obligations.ResetStateHasTheGivenValues : Prop :=
  State.reset.busy = false ∧ State.reset.pktValid = false ∧ State.reset.inited = false ∧
  State.reset.csOe = false ∧ State.reset.phase = .idle ∧ State.reset.trace = []

/-- The state after hardware reset meets the invariant (R47, R135). -/
def Obligations.ResetStateMeetsTheInvariant : Prop := State.reset.Inv

/-- Every step keeps the invariant: `BUSY` and `OP` agree with `PHASE`, `TP` and `CNT` stand inside a
well-formed table, the ROM holds the three tables in canonical form, after boot the pin is an output and low
exactly inside a frame, before it no byte is exchanged, a valid packet is a built one and a transmit has one,
the trace keeps the chip-select discipline, and every exchange is counted (R23, R24, R26, R27, R28, R32,
R70, R135, R191, R217). -/
def Obligations.EveryStepKeepsTheInvariant : Prop :=
  ∀ s t : State, s.Inv → step s = .next t → t.Inv

/-- No step changes the ROM or a parameter, so every ROM byte reads as before (R35, R76, R216, R271). -/
def Obligations.RomAndParametersNeverChange : Prop :=
  ∀ s t : State, step s = .next t →
    t.rom = s.rom ∧ t.params = s.params ∧ ∀ a, t.rom.tblRead a = s.rom.tblRead a

/-- A step only adds events at the end of the trace (R44). -/
def Obligations.TraceOnlyGrows : Prop :=
  ∀ s t : State, step s = .next t → ∃ es, t.trace = s.trace ++ es

/-- Nothing clears `INITED` or `CS_OE`, and only a RESET in progress sets them (R31, R32). -/
def Obligations.InitedAndPinOutputAreSetOnceByReset : Prop :=
  ∀ s t : State, step s = .next t →
    (s.inited = true → t.inited = true) ∧ (s.csOe = true → t.csOe = true) ∧
    (s.Inv → t.inited ≠ s.inited ∨ t.csOe ≠ s.csOe → s.busy = true ∧ s.op = 0x01#8)

/-- Only the acceptance of BUILD_PACKET or SEND_MOTOR_POWER writes the packet buffer or makes a packet valid,
and of a command that ends there only BUILD_PACKET leaves one valid that was not (R25, R26, R198). -/
def Obligations.OnlyBuildersWriteThePacket : Prop :=
  ∀ s t : State, step s = .next t →
    (t.pkt ≠ s.pkt ∨ s.pktValid = false ∧ t.pktValid = true →
      s.busy = false ∧ ∃ w later, s.pending = w :: later ∧
        (cmdOpcode w = 0x05#8 ∧ t.busy = false ∨ cmdOpcode w = 0x07#8 ∧ t.busy = true)) ∧
    (s.pktValid = true → t.pktValid = false → s.phase = .walk .postLoad ∧ t.busy = false)

/-- Only READ_REG and READ_STATUS write the result register, in the step that completes them; RESET's polls
do not (R22, R173; decision D22). -/
def Obligations.OnlyReadsWriteTheResult : Prop :=
  ∀ s t : State, s.Inv → step s = .next t → t.res ≠ s.res →
    s.busy = true ∧ (s.op = 0x03#8 ∨ s.op = 0x04#8) ∧ t.busy = false

/-! ### Two descriptions of one machine -/

/-- Walking a table step by step, each length byte fetched at `TP`, each data byte fetched at `TP` and counted
down in `CNT`, gives what the whole walk of the command rules gives: after the steps of k entries and of the
END, the state after the walk, returned to its command (R151 to R154; the number of steps is log 7). -/
def Obligations.WalkingInstructionByInstructionAgrees : Prop :=
  ∀ (s : State) (w : Walk) (entries : List (List Byte)), s.busy = true → s.phase = .walk w →
    s.rom.table s.tp = some entries →
    Sys2Proof.core.run (tableSteps entries) s = .next (s.afterWalk s.tp entries).afterTable

/-- Every command that completes is the uninterrupted sequence of its steps: from the machine that takes its
word off the port, through states with `BUSY` = 1 in which the port is left alone and the trace only grows,
to the state that its meaning gives, the first with `BUSY` = 0. RESET is among them, with its INIT walk, for
a chip that is ready at the first status frame (R27, R40, R73, R150, R161, R184, R193; log 7). -/
def Obligations.CommandsAreTheSequenceOfTheirSteps : Prop :=
  ∀ (s u : State) (w : CmdWord) (later : List CmdWord), s.busy = false → s.pending = w :: later →
    exec (decodeCommand w) { s with pending := later } = .next u → u.busy = false →
    ∃ n, Sys2Proof.core.run (n + 1) s = .next u ∧
      ∀ m, 1 ≤ m → m ≤ n →
        ∃ t, Sys2Proof.core.run m s = .next t ∧ t.busy = true ∧ t.pending = later ∧
          ∃ es, u.trace = t.trace ++ es

/-- The radio steers nothing but the ready poll: with other replies, every instruction except RESET still
answers a next state, asks the bus for the same things, and leaves the same state but for `RES`, the
replies in the trace and the tape itself (R78, R136, R155, R157, R233; log 5). -/
def Obligations.RadioSteersOnlyTheReadyPoll : Prop :=
  ∀ (i : Instr) (s t : State) (replies : List Byte) (drawn : Nat), (∀ x, i ≠ .reset x) →
    exec i s = .next t →
    ∃ t', exec i { s with replies := replies, drawn := drawn } = .next t' ∧
      t'.trace.map Event.request = t.trace.map Event.request ∧
      t' = { t with res := t'.res, trace := t'.trace, replies := t'.replies, drawn := t'.drawn }

/-! ### The contents of the ROM -/

/-- The packed layout of R217 meets the conditions on the ROM for every INIT of the required shape that fits:
three well-formed tables with the contents of 45_tables.md, none overlapping another, in canonical form
(R158, R211 to R214, R217; decision D15, logs 3, 23). -/
def Obligations.PackedRomHoldsTheThreeTables : Prop :=
  ∀ (p : Params) (entries : List (List Byte)), InitShape p entries → tableLength entries + 8 ≤ 65536 →
    (packedRom p (tableBytes entries)).layoutOk p ∧ (packedRom p (tableBytes entries)).cells.wf

/-- The bytes of PRE_TX and POST_LOAD stand in every ROM that meets the conditions, and so in that of every
state that meets the invariant: `01 CMD_SFTX 01 CMD_SIDLE 00` and `01 CMD_STX 00` (R211, R212; decision
D13). -/
def Obligations.TransmitTablesHaveTheirBytes : Prop :=
  ∀ s : State, s.Inv →
    s.rom.spells s.rom.preTxBase.toNat [0x01#8, s.params.cmdSftx, 0x01#8, s.params.cmdSidle, 0x00#8] ∧
    s.rom.spells s.rom.postLoadBase.toNat [0x01#8, s.params.cmdStx, 0x00#8]

/-- Every INIT opens with a strobe and ends with the idle strobe; between them it has, in this order and
perhaps with other entries among them, register writes, a burst and strobes; no entry reads, and every entry
fits a length byte (R210, R213, R214; that no entry has its read bit set is log 23). -/
def Obligations.InitIsAStrobeWritesBurstAndStrobes : Prop :=
  ∀ (p : Params) (entries : List (List Byte)), InitShape p entries →
    (∃ first middle, entries = first :: (middle ++ [[p.cmdSidle]]) ∧ first.length = 1 ∧
      ∃ writes burst flushes, (writes ++ burst :: flushes).Sublist middle ∧
        writes ≠ [] ∧ (∀ d ∈ writes, d.length % 2 = 0) ∧ 2 ≤ burst.length ∧
        flushes ≠ [] ∧ ∀ d ∈ flushes, d.length = 1) ∧
    ∀ d ∈ entries, 1 ≤ d.length ∧ d.length ≤ 255 ∧ ∃ h rest, d = h :: rest ∧ h.getLsbD 7 = false

/-! ### Atomic steps, stops and hardware reset -/

/-- A step makes at most one event, and counts it if it is an exchange (R44, R70, R137, R236; decision
D5). -/
def Obligations.EachStepMakesAtMostOneEvent : Prop :=
  ∀ s t : State, step s = .next t →
    ∃ es, es.length ≤ 1 ∧ t.trace = s.trace ++ es ∧ t.drawn = s.drawn + xferCount es

/-- The walker's own stops: a walk of a table that is not well formed does not begin, a fetch of a length byte
or of a data byte outside the ROM is refused (R61, R158; decision D16, log 15). -/
def Obligations.FetchesOutsideATableAreRefused : Prop :=
  ∀ (s : State) (w : Walk), s.busy = true →
    (∀ base, s.phase = .table w → s.walkBase w = some base → s.rom.table base = none →
      step s = .refused .badTable) ∧
    (s.phase = .walk w → s.rom.tblRead s.tp.toNat = none → step s = .refused .badTable) ∧
    (s.phase = .data w → s.rom.tblRead s.tp.toNat = none → step s = .refused .badTable)

/-- From a state that meets the invariant only the acceptance of a command can be refused, each refusal has its
cause, and no table is ever ill formed (R158, R230, R239, R262; decisions D4, D16, D17, D21, D28). -/
def Obligations.OnlyAcceptanceIsRefused : Prop :=
  ∀ (s : State) (r : Refusal), s.Inv → step s = .refused r →
    s.busy = false ∧ ∃ w later, s.pending = w :: later ∧
      (r = .beforeReset ∧ s.inited = false ∨
       r = .noPacket ∧ cmdOpcode w = 0x06#8 ∧ s.pktValid = false ∨
       r = .badOpcode ∧ (cmdOpcode w = 0#8 ∨ 8 ≤ (cmdOpcode w).toNat) ∨
       r = .badTableId ∧ cmdOpcode w = 0x02#8 ∧ 3 ≤ (cmdOperand w).toNat)

/-- Hardware reset gives the values of R47 and leaves the ROM, the parameters and the radio as they are, so
the machine meets the invariant again; power-on is such a state (R47, R260, R261; decision D20). -/
def Obligations.HardwareResetLeavesTheRom : Prop :=
  (∀ s : State, s.hardwareReset.rom = s.rom ∧ s.hardwareReset.params = s.params ∧
    (∀ k, s.hardwareReset.replyAt k = s.replyAt k) ∧
    s.hardwareReset.busy = false ∧ s.hardwareReset.pktValid = false ∧ s.hardwareReset.inited = false ∧
    s.hardwareReset.csOe = false ∧ s.hardwareReset.phase = .idle ∧ s.hardwareReset.trace = [] ∧
    (s.Inv → s.hardwareReset.Inv)) ∧
  State.reset.hardwareReset = State.reset

/-- An INIT has at least the entries of R213: with a further entry that does not read and fits a length byte,
put anywhere between its first and its last entry, it is an INIT still (R213, R214; that no entry has its read
bit set is log 23). -/
def Obligations.InitMayHaveFurtherEntries : Prop :=
  ∀ (p : Params) (before after : List (List Byte)) (header : Byte) (values : List Byte),
    before ≠ [] → after ≠ [] → header.getLsbD 7 = false → values.length ≤ 254 →
    InitShape p (before ++ after) → InitShape p (before ++ (header :: values) :: after)

/-- A RESET whose INIT table is not well formed is refused at the first status frame that finds the chip
ready, before the first boot as after it (R158, R180, R183, R184; decision D16, log 15). -/
def Obligations.ResetWithAnIllFormedInitIsRefused : Prop :=
  ∀ (operand : Byte) (s : State), s.busy = false → (s.replyAt 1).getLsbD 7 = false →
    s.rom.table s.rom.initBase = none → exec (.reset operand) s = .refused .badTable
end

