-- ==== Sys2Proof/Laws/State.lean ====
section
/-! SUPPORT. Every field after every elementary update of the state, true by `rfl`, so that no proof
unfolds a record update. -/

namespace Sys2Proof.Machine

section
variable (s : State) (e : Event)

@[simp] theorem State.emit_arg : (s.emit e).arg = s.arg := rfl
@[simp] theorem State.emit_res : (s.emit e).res = s.res := rfl
@[simp] theorem State.emit_cnt : (s.emit e).cnt = s.cnt := rfl
@[simp] theorem State.emit_pkt : (s.emit e).pkt = s.pkt := rfl
@[simp] theorem State.emit_tp : (s.emit e).tp = s.tp := rfl
@[simp] theorem State.emit_pktValid : (s.emit e).pktValid = s.pktValid := rfl
@[simp] theorem State.emit_busy : (s.emit e).busy = s.busy := rfl
@[simp] theorem State.emit_inited : (s.emit e).inited = s.inited := rfl
@[simp] theorem State.emit_op : (s.emit e).op = s.op := rfl
@[simp] theorem State.emit_phase : (s.emit e).phase = s.phase := rfl
@[simp] theorem State.emit_csN : (s.emit e).csN = s.csN := rfl
@[simp] theorem State.emit_csOe : (s.emit e).csOe = s.csOe := rfl
@[simp] theorem State.emit_rom : (s.emit e).rom = s.rom := rfl
@[simp] theorem State.emit_trace : (s.emit e).trace = s.trace ++ [e] := rfl
@[simp] theorem State.emit_pending : (s.emit e).pending = s.pending := rfl
@[simp] theorem State.emit_replies : (s.emit e).replies = s.replies := rfl
@[simp] theorem State.emit_drawn : (s.emit e).drawn = s.drawn := rfl
@[simp] theorem State.emit_params : (s.emit e).params = s.params := rfl

end

section
variable (s : State)

@[simp] theorem State.csAssert_arg : s.csAssert.arg = s.arg := rfl
@[simp] theorem State.csAssert_res : s.csAssert.res = s.res := rfl
@[simp] theorem State.csAssert_cnt : s.csAssert.cnt = s.cnt := rfl
@[simp] theorem State.csAssert_pkt : s.csAssert.pkt = s.pkt := rfl
@[simp] theorem State.csAssert_tp : s.csAssert.tp = s.tp := rfl
@[simp] theorem State.csAssert_pktValid : s.csAssert.pktValid = s.pktValid := rfl
@[simp] theorem State.csAssert_busy : s.csAssert.busy = s.busy := rfl
@[simp] theorem State.csAssert_inited : s.csAssert.inited = s.inited := rfl
@[simp] theorem State.csAssert_op : s.csAssert.op = s.op := rfl
@[simp] theorem State.csAssert_phase : s.csAssert.phase = s.phase := rfl
@[simp] theorem State.csAssert_csN : s.csAssert.csN = false := rfl
@[simp] theorem State.csAssert_csOe : s.csAssert.csOe = s.csOe := rfl
@[simp] theorem State.csAssert_rom : s.csAssert.rom = s.rom := rfl
@[simp] theorem State.csAssert_trace : s.csAssert.trace = s.trace ++ [.pin false] := rfl
@[simp] theorem State.csAssert_pending : s.csAssert.pending = s.pending := rfl
@[simp] theorem State.csAssert_replies : s.csAssert.replies = s.replies := rfl
@[simp] theorem State.csAssert_drawn : s.csAssert.drawn = s.drawn := rfl
@[simp] theorem State.csAssert_params : s.csAssert.params = s.params := rfl

end

section
variable (s : State)

@[simp] theorem State.csDeassert_arg : s.csDeassert.arg = s.arg := rfl
@[simp] theorem State.csDeassert_res : s.csDeassert.res = s.res := rfl
@[simp] theorem State.csDeassert_cnt : s.csDeassert.cnt = s.cnt := rfl
@[simp] theorem State.csDeassert_pkt : s.csDeassert.pkt = s.pkt := rfl
@[simp] theorem State.csDeassert_tp : s.csDeassert.tp = s.tp := rfl
@[simp] theorem State.csDeassert_pktValid : s.csDeassert.pktValid = s.pktValid := rfl
@[simp] theorem State.csDeassert_busy : s.csDeassert.busy = s.busy := rfl
@[simp] theorem State.csDeassert_inited : s.csDeassert.inited = s.inited := rfl
@[simp] theorem State.csDeassert_op : s.csDeassert.op = s.op := rfl
@[simp] theorem State.csDeassert_phase : s.csDeassert.phase = s.phase := rfl
@[simp] theorem State.csDeassert_csN : s.csDeassert.csN = true := rfl
@[simp] theorem State.csDeassert_csOe : s.csDeassert.csOe = s.csOe := rfl
@[simp] theorem State.csDeassert_rom : s.csDeassert.rom = s.rom := rfl
@[simp] theorem State.csDeassert_trace : s.csDeassert.trace = s.trace ++ [.pin true] := rfl
@[simp] theorem State.csDeassert_pending : s.csDeassert.pending = s.pending := rfl
@[simp] theorem State.csDeassert_replies : s.csDeassert.replies = s.replies := rfl
@[simp] theorem State.csDeassert_drawn : s.csDeassert.drawn = s.drawn := rfl
@[simp] theorem State.csDeassert_params : s.csDeassert.params = s.params := rfl

end

section
variable (s : State)

@[simp] theorem State.busConfigure_arg : s.busConfigure.arg = s.arg := rfl
@[simp] theorem State.busConfigure_res : s.busConfigure.res = s.res := rfl
@[simp] theorem State.busConfigure_cnt : s.busConfigure.cnt = s.cnt := rfl
@[simp] theorem State.busConfigure_pkt : s.busConfigure.pkt = s.pkt := rfl
@[simp] theorem State.busConfigure_tp : s.busConfigure.tp = s.tp := rfl
@[simp] theorem State.busConfigure_pktValid : s.busConfigure.pktValid = s.pktValid := rfl
@[simp] theorem State.busConfigure_busy : s.busConfigure.busy = s.busy := rfl
@[simp] theorem State.busConfigure_inited : s.busConfigure.inited = s.inited := rfl
@[simp] theorem State.busConfigure_op : s.busConfigure.op = s.op := rfl
@[simp] theorem State.busConfigure_phase : s.busConfigure.phase = s.phase := rfl
@[simp] theorem State.busConfigure_csN : s.busConfigure.csN = s.csN := rfl
@[simp] theorem State.busConfigure_csOe : s.busConfigure.csOe = s.csOe := rfl
@[simp] theorem State.busConfigure_rom : s.busConfigure.rom = s.rom := rfl
@[simp] theorem State.busConfigure_trace : s.busConfigure.trace = s.trace ++ [.cfg s.params.busBitOrder s.params.busMode s.params.busClkdiv] := rfl
@[simp] theorem State.busConfigure_pending : s.busConfigure.pending = s.pending := rfl
@[simp] theorem State.busConfigure_replies : s.busConfigure.replies = s.replies := rfl
@[simp] theorem State.busConfigure_drawn : s.busConfigure.drawn = s.drawn := rfl
@[simp] theorem State.busConfigure_params : s.busConfigure.params = s.params := rfl

end

section
variable (s : State)

@[simp] theorem State.fetchEnd_arg : s.fetchEnd.arg = s.arg := rfl
@[simp] theorem State.fetchEnd_res : s.fetchEnd.res = s.res := rfl
@[simp] theorem State.fetchEnd_cnt : s.fetchEnd.cnt = s.cnt := rfl
@[simp] theorem State.fetchEnd_pkt : s.fetchEnd.pkt = s.pkt := rfl
@[simp] theorem State.fetchEnd_tp : s.fetchEnd.tp = s.tp + 1#16 := rfl
@[simp] theorem State.fetchEnd_pktValid : s.fetchEnd.pktValid = s.pktValid := rfl
@[simp] theorem State.fetchEnd_busy : s.fetchEnd.busy = s.busy := rfl
@[simp] theorem State.fetchEnd_inited : s.fetchEnd.inited = s.inited := rfl
@[simp] theorem State.fetchEnd_op : s.fetchEnd.op = s.op := rfl
@[simp] theorem State.fetchEnd_phase : s.fetchEnd.phase = s.phase := rfl
@[simp] theorem State.fetchEnd_csN : s.fetchEnd.csN = s.csN := rfl
@[simp] theorem State.fetchEnd_csOe : s.fetchEnd.csOe = s.csOe := rfl
@[simp] theorem State.fetchEnd_rom : s.fetchEnd.rom = s.rom := rfl
@[simp] theorem State.fetchEnd_trace : s.fetchEnd.trace = s.trace := rfl
@[simp] theorem State.fetchEnd_pending : s.fetchEnd.pending = s.pending := rfl
@[simp] theorem State.fetchEnd_replies : s.fetchEnd.replies = s.replies := rfl
@[simp] theorem State.fetchEnd_drawn : s.fetchEnd.drawn = s.drawn := rfl
@[simp] theorem State.fetchEnd_params : s.fetchEnd.params = s.params := rfl

end

section
variable (s : State) (opcode operand : Byte)

@[simp] theorem State.accept_arg : (s.accept opcode operand).arg = operand := rfl
@[simp] theorem State.accept_res : (s.accept opcode operand).res = s.res := rfl
@[simp] theorem State.accept_cnt : (s.accept opcode operand).cnt = s.cnt := rfl
@[simp] theorem State.accept_pkt : (s.accept opcode operand).pkt = s.pkt := rfl
@[simp] theorem State.accept_tp : (s.accept opcode operand).tp = s.tp := rfl
@[simp] theorem State.accept_pktValid : (s.accept opcode operand).pktValid = s.pktValid := rfl
@[simp] theorem State.accept_busy : (s.accept opcode operand).busy = true := rfl
@[simp] theorem State.accept_inited : (s.accept opcode operand).inited = s.inited := rfl
@[simp] theorem State.accept_op : (s.accept opcode operand).op = opcode := rfl
@[simp] theorem State.accept_phase : (s.accept opcode operand).phase = s.phase := rfl
@[simp] theorem State.accept_csN : (s.accept opcode operand).csN = s.csN := rfl
@[simp] theorem State.accept_csOe : (s.accept opcode operand).csOe = s.csOe := rfl
@[simp] theorem State.accept_rom : (s.accept opcode operand).rom = s.rom := rfl
@[simp] theorem State.accept_trace : (s.accept opcode operand).trace = s.trace := rfl
@[simp] theorem State.accept_pending : (s.accept opcode operand).pending = s.pending := rfl
@[simp] theorem State.accept_replies : (s.accept opcode operand).replies = s.replies := rfl
@[simp] theorem State.accept_drawn : (s.accept opcode operand).drawn = s.drawn := rfl
@[simp] theorem State.accept_params : (s.accept opcode operand).params = s.params := rfl

end

section
variable (s : State)

@[simp] theorem State.complete_arg : s.complete.arg = s.arg := rfl
@[simp] theorem State.complete_res : s.complete.res = s.res := rfl
@[simp] theorem State.complete_cnt : s.complete.cnt = s.cnt := rfl
@[simp] theorem State.complete_pkt : s.complete.pkt = s.pkt := rfl
@[simp] theorem State.complete_tp : s.complete.tp = s.tp := rfl
@[simp] theorem State.complete_pktValid : s.complete.pktValid = s.pktValid := rfl
@[simp] theorem State.complete_busy : s.complete.busy = false := rfl
@[simp] theorem State.complete_inited : s.complete.inited = s.inited := rfl
@[simp] theorem State.complete_op : s.complete.op = s.op := rfl
@[simp] theorem State.complete_phase : s.complete.phase = .idle := rfl
@[simp] theorem State.complete_csN : s.complete.csN = s.csN := rfl
@[simp] theorem State.complete_csOe : s.complete.csOe = s.csOe := rfl
@[simp] theorem State.complete_rom : s.complete.rom = s.rom := rfl
@[simp] theorem State.complete_trace : s.complete.trace = s.trace := rfl
@[simp] theorem State.complete_pending : s.complete.pending = s.pending := rfl
@[simp] theorem State.complete_replies : s.complete.replies = s.replies := rfl
@[simp] theorem State.complete_drawn : s.complete.drawn = s.drawn := rfl
@[simp] theorem State.complete_params : s.complete.params = s.params := rfl

end

section
variable (s : State) (p : Byte)

@[simp] theorem State.buildPacket_arg : (s.buildPacket p).arg = s.arg := rfl
@[simp] theorem State.buildPacket_res : (s.buildPacket p).res = s.res := rfl
@[simp] theorem State.buildPacket_cnt : (s.buildPacket p).cnt = s.cnt := rfl
@[simp] theorem State.buildPacket_pkt : (s.buildPacket p).pkt = packetOf p := rfl
@[simp] theorem State.buildPacket_tp : (s.buildPacket p).tp = s.tp := rfl
@[simp] theorem State.buildPacket_pktValid : (s.buildPacket p).pktValid = true := rfl
@[simp] theorem State.buildPacket_busy : (s.buildPacket p).busy = s.busy := rfl
@[simp] theorem State.buildPacket_inited : (s.buildPacket p).inited = s.inited := rfl
@[simp] theorem State.buildPacket_op : (s.buildPacket p).op = s.op := rfl
@[simp] theorem State.buildPacket_phase : (s.buildPacket p).phase = s.phase := rfl
@[simp] theorem State.buildPacket_csN : (s.buildPacket p).csN = s.csN := rfl
@[simp] theorem State.buildPacket_csOe : (s.buildPacket p).csOe = s.csOe := rfl
@[simp] theorem State.buildPacket_rom : (s.buildPacket p).rom = s.rom := rfl
@[simp] theorem State.buildPacket_trace : (s.buildPacket p).trace = s.trace := rfl
@[simp] theorem State.buildPacket_pending : (s.buildPacket p).pending = s.pending := rfl
@[simp] theorem State.buildPacket_replies : (s.buildPacket p).replies = s.replies := rfl
@[simp] theorem State.buildPacket_drawn : (s.buildPacket p).drawn = s.drawn := rfl
@[simp] theorem State.buildPacket_params : (s.buildPacket p).params = s.params := rfl

end

section
variable (s : State)

@[simp] theorem State.usePacket_arg : s.usePacket.arg = s.arg := rfl
@[simp] theorem State.usePacket_res : s.usePacket.res = s.res := rfl
@[simp] theorem State.usePacket_cnt : s.usePacket.cnt = s.cnt := rfl
@[simp] theorem State.usePacket_pkt : s.usePacket.pkt = s.pkt := rfl
@[simp] theorem State.usePacket_tp : s.usePacket.tp = s.tp := rfl
@[simp] theorem State.usePacket_pktValid : s.usePacket.pktValid = false := rfl
@[simp] theorem State.usePacket_busy : s.usePacket.busy = s.busy := rfl
@[simp] theorem State.usePacket_inited : s.usePacket.inited = s.inited := rfl
@[simp] theorem State.usePacket_op : s.usePacket.op = s.op := rfl
@[simp] theorem State.usePacket_phase : s.usePacket.phase = s.phase := rfl
@[simp] theorem State.usePacket_csN : s.usePacket.csN = s.csN := rfl
@[simp] theorem State.usePacket_csOe : s.usePacket.csOe = s.csOe := rfl
@[simp] theorem State.usePacket_rom : s.usePacket.rom = s.rom := rfl
@[simp] theorem State.usePacket_trace : s.usePacket.trace = s.trace := rfl
@[simp] theorem State.usePacket_pending : s.usePacket.pending = s.pending := rfl
@[simp] theorem State.usePacket_replies : s.usePacket.replies = s.replies := rfl
@[simp] theorem State.usePacket_drawn : s.usePacket.drawn = s.drawn := rfl
@[simp] theorem State.usePacket_params : s.usePacket.params = s.params := rfl

end

section
variable (s : State)

@[simp] theorem State.pinInit_arg : s.pinInit.arg = s.arg := rfl
@[simp] theorem State.pinInit_res : s.pinInit.res = s.res := rfl
@[simp] theorem State.pinInit_cnt : s.pinInit.cnt = s.cnt := rfl
@[simp] theorem State.pinInit_pkt : s.pinInit.pkt = s.pkt := rfl
@[simp] theorem State.pinInit_tp : s.pinInit.tp = s.tp := rfl
@[simp] theorem State.pinInit_pktValid : s.pinInit.pktValid = s.pktValid := rfl
@[simp] theorem State.pinInit_busy : s.pinInit.busy = s.busy := rfl
@[simp] theorem State.pinInit_inited : s.pinInit.inited = true := rfl
@[simp] theorem State.pinInit_op : s.pinInit.op = s.op := rfl
@[simp] theorem State.pinInit_phase : s.pinInit.phase = s.phase := rfl
@[simp] theorem State.pinInit_csN : s.pinInit.csN = true := rfl
@[simp] theorem State.pinInit_csOe : s.pinInit.csOe = true := rfl
@[simp] theorem State.pinInit_rom : s.pinInit.rom = s.rom := rfl
@[simp] theorem State.pinInit_trace : s.pinInit.trace = s.trace ++ [.pinMode] ++ [.pin true] := rfl
@[simp] theorem State.pinInit_pending : s.pinInit.pending = s.pending := rfl
@[simp] theorem State.pinInit_replies : s.pinInit.replies = s.replies := rfl
@[simp] theorem State.pinInit_drawn : s.pinInit.drawn = s.drawn := rfl
@[simp] theorem State.pinInit_params : s.pinInit.params = s.params := rfl

end

section
variable (s : State)

@[simp] theorem State.pinOutput_arg : (s.pinOutput).arg = s.arg := rfl
@[simp] theorem State.pinOutput_res : (s.pinOutput).res = s.res := rfl
@[simp] theorem State.pinOutput_cnt : (s.pinOutput).cnt = s.cnt := rfl
@[simp] theorem State.pinOutput_pkt : (s.pinOutput).pkt = s.pkt := rfl
@[simp] theorem State.pinOutput_tp : (s.pinOutput).tp = s.tp := rfl
@[simp] theorem State.pinOutput_pktValid : (s.pinOutput).pktValid = s.pktValid := rfl
@[simp] theorem State.pinOutput_busy : (s.pinOutput).busy = s.busy := rfl
@[simp] theorem State.pinOutput_inited : (s.pinOutput).inited = s.inited := rfl
@[simp] theorem State.pinOutput_op : (s.pinOutput).op = s.op := rfl
@[simp] theorem State.pinOutput_phase : (s.pinOutput).phase = s.phase := rfl
@[simp] theorem State.pinOutput_csN : (s.pinOutput).csN = s.csN := rfl
@[simp] theorem State.pinOutput_csOe : (s.pinOutput).csOe = true := rfl
@[simp] theorem State.pinOutput_rom : (s.pinOutput).rom = s.rom := rfl
@[simp] theorem State.pinOutput_trace : (s.pinOutput).trace = s.trace ++ [.pinMode] := rfl
@[simp] theorem State.pinOutput_pending : (s.pinOutput).pending = s.pending := rfl
@[simp] theorem State.pinOutput_replies : (s.pinOutput).replies = s.replies := rfl
@[simp] theorem State.pinOutput_drawn : (s.pinOutput).drawn = s.drawn := rfl
@[simp] theorem State.pinOutput_params : (s.pinOutput).params = s.params := rfl

end

section
variable (s : State)

@[simp] theorem State.pinHigh_arg : (s.pinHigh).arg = s.arg := rfl
@[simp] theorem State.pinHigh_res : (s.pinHigh).res = s.res := rfl
@[simp] theorem State.pinHigh_cnt : (s.pinHigh).cnt = s.cnt := rfl
@[simp] theorem State.pinHigh_pkt : (s.pinHigh).pkt = s.pkt := rfl
@[simp] theorem State.pinHigh_tp : (s.pinHigh).tp = s.tp := rfl
@[simp] theorem State.pinHigh_pktValid : (s.pinHigh).pktValid = s.pktValid := rfl
@[simp] theorem State.pinHigh_busy : (s.pinHigh).busy = s.busy := rfl
@[simp] theorem State.pinHigh_inited : (s.pinHigh).inited = true := rfl
@[simp] theorem State.pinHigh_op : (s.pinHigh).op = s.op := rfl
@[simp] theorem State.pinHigh_phase : (s.pinHigh).phase = s.phase := rfl
@[simp] theorem State.pinHigh_csN : (s.pinHigh).csN = true := rfl
@[simp] theorem State.pinHigh_csOe : (s.pinHigh).csOe = s.csOe := rfl
@[simp] theorem State.pinHigh_rom : (s.pinHigh).rom = s.rom := rfl
@[simp] theorem State.pinHigh_trace : (s.pinHigh).trace = s.trace ++ [.pin true] := rfl
@[simp] theorem State.pinHigh_pending : (s.pinHigh).pending = s.pending := rfl
@[simp] theorem State.pinHigh_replies : (s.pinHigh).replies = s.replies := rfl
@[simp] theorem State.pinHigh_drawn : (s.pinHigh).drawn = s.drawn := rfl
@[simp] theorem State.pinHigh_params : (s.pinHigh).params = s.params := rfl

end

section
variable (s : State) (n : Byte) (w : Walk)

@[simp] theorem State.fetchLength_arg : (s.fetchLength n w).arg = s.arg := rfl
@[simp] theorem State.fetchLength_res : (s.fetchLength n w).res = s.res := rfl
@[simp] theorem State.fetchLength_cnt : (s.fetchLength n w).cnt = n := rfl
@[simp] theorem State.fetchLength_pkt : (s.fetchLength n w).pkt = s.pkt := rfl
@[simp] theorem State.fetchLength_tp : (s.fetchLength n w).tp = s.tp + 1#16 := rfl
@[simp] theorem State.fetchLength_pktValid : (s.fetchLength n w).pktValid = s.pktValid := rfl
@[simp] theorem State.fetchLength_busy : (s.fetchLength n w).busy = s.busy := rfl
@[simp] theorem State.fetchLength_inited : (s.fetchLength n w).inited = s.inited := rfl
@[simp] theorem State.fetchLength_op : (s.fetchLength n w).op = s.op := rfl
@[simp] theorem State.fetchLength_phase : (s.fetchLength n w).phase = .select w := rfl
@[simp] theorem State.fetchLength_csN : (s.fetchLength n w).csN = s.csN := rfl
@[simp] theorem State.fetchLength_csOe : (s.fetchLength n w).csOe = s.csOe := rfl
@[simp] theorem State.fetchLength_rom : (s.fetchLength n w).rom = s.rom := rfl
@[simp] theorem State.fetchLength_trace : (s.fetchLength n w).trace = s.trace := rfl
@[simp] theorem State.fetchLength_pending : (s.fetchLength n w).pending = s.pending := rfl
@[simp] theorem State.fetchLength_replies : (s.fetchLength n w).replies = s.replies := rfl
@[simp] theorem State.fetchLength_drawn : (s.fetchLength n w).drawn = s.drawn := rfl
@[simp] theorem State.fetchLength_params : (s.fetchLength n w).params = s.params := rfl

end

section
variable (s : State)

@[simp] theorem State.hardwareReset_arg : (s.hardwareReset).arg = State.reset.arg := rfl
@[simp] theorem State.hardwareReset_res : (s.hardwareReset).res = State.reset.res := rfl
@[simp] theorem State.hardwareReset_cnt : (s.hardwareReset).cnt = State.reset.cnt := rfl
@[simp] theorem State.hardwareReset_pkt : (s.hardwareReset).pkt = State.reset.pkt := rfl
@[simp] theorem State.hardwareReset_tp : (s.hardwareReset).tp = State.reset.tp := rfl
@[simp] theorem State.hardwareReset_pktValid : (s.hardwareReset).pktValid = State.reset.pktValid := rfl
@[simp] theorem State.hardwareReset_busy : (s.hardwareReset).busy = State.reset.busy := rfl
@[simp] theorem State.hardwareReset_inited : (s.hardwareReset).inited = State.reset.inited := rfl
@[simp] theorem State.hardwareReset_op : (s.hardwareReset).op = State.reset.op := rfl
@[simp] theorem State.hardwareReset_phase : (s.hardwareReset).phase = State.reset.phase := rfl
@[simp] theorem State.hardwareReset_csN : (s.hardwareReset).csN = State.reset.csN := rfl
@[simp] theorem State.hardwareReset_csOe : (s.hardwareReset).csOe = State.reset.csOe := rfl
@[simp] theorem State.hardwareReset_rom : (s.hardwareReset).rom = s.rom := rfl
@[simp] theorem State.hardwareReset_trace : (s.hardwareReset).trace = State.reset.trace := rfl
@[simp] theorem State.hardwareReset_pending : (s.hardwareReset).pending = State.reset.pending := rfl
@[simp] theorem State.hardwareReset_replies : (s.hardwareReset).replies = s.replies := rfl
@[simp] theorem State.hardwareReset_drawn : (s.hardwareReset).drawn = s.drawn := rfl
@[simp] theorem State.hardwareReset_params : (s.hardwareReset).params = s.params := rfl

end

end Sys2Proof.Machine
end

