-- ==== Sys2Proof/Laws/Bus.lean ====
section
/-! SUPPORT. What the bus operations do, once each: the transfers of a frame, a frame, a read frame, a
table entry and a walk, as one record update of the state they start from. -/

namespace Sys2Proof.Machine

@[simp] theorem State.nextReplies_length (s : State) (n : Nat) : (s.nextReplies n).length = n := by
  simp [State.nextReplies]

/-- The replies to come depend on the tape and the counter alone. -/
theorem State.replyAt_congr {s t : State} (hr : t.replies = s.replies) (hd : t.drawn = s.drawn) (k : Nat) :
    t.replyAt k = s.replyAt k := by simp [State.replyAt, hr, hd]

theorem State.nextReplies_congr {s t : State} (hr : t.replies = s.replies) (hd : t.drawn = s.drawn)
    (n : Nat) : t.nextReplies n = s.nextReplies n := by
  simp [State.nextReplies, State.replyAt, hr, hd]

/-- After `j` exchanges the replies to come are those further on. -/
theorem State.replyAt_drop {s t : State} (j : Nat) (hr : t.replies = s.replies.drop j)
    (hd : t.drawn = s.drawn + j) (k : Nat) : t.replyAt k = s.replyAt (j + k) := by
  simp [State.replyAt, hr, hd, Nat.add_assoc]

theorem State.nextReplies_succ {s t : State} (hr : t.replies = s.replies.drop 1)
    (hd : t.drawn = s.drawn + 1) (n : Nat) :
    s.nextReplies (n + 1) = s.replyAt 0 :: t.nextReplies n := by
  simp only [State.nextReplies, List.range_succ_eq_map, List.map_cons, List.map_map]
  congr 1
  refine List.map_congr_left fun k _ => ?_
  rw [State.replyAt_drop 1 hr hd, Function.comp_apply, Nat.succ_eq_add_one, Nat.add_comm]

theorem State.xfer_fst (out : Byte) (s : State) : (s.xfer out).1 = s.replyAt 0 := rfl

theorem State.xfer_snd (out : Byte) (s : State) :
    (s.xfer out).2 = { s with
      replies := s.replies.drop 1, drawn := s.drawn + 1,
      trace := s.trace ++ [.xfer out (s.replyAt 0)] } := by
  simp [State.xfer, State.emit]

/-- The transfers of a frame (R134): the replies in order, one event each, nothing else. -/
theorem State.xferAll_eq (bytes : List Byte) (s : State) :
    s.xferAll bytes = (s.nextReplies bytes.length, { s with
      replies := s.replies.drop bytes.length, drawn := s.drawn + bytes.length,
      trace := s.trace ++ List.zipWith Event.xfer bytes (s.nextReplies bytes.length) }) := by
  induction bytes generalizing s with
  | nil => simp [State.xferAll, State.nextReplies]
  | cons b bs ih =>
    have hn := State.nextReplies_succ (s := s) (t := (s.xfer b).2)
      (by rw [State.xfer_snd]) (by rw [State.xfer_snd]) bs.length
    simp only [State.xferAll, ih, List.length_cons, hn, State.xfer_fst, Prod.mk.injEq, true_and]
    simp only [State.xfer_snd, List.drop_drop, List.zipWith_cons_cons, List.append_assoc,
      List.singleton_append, Nat.add_assoc, Nat.add_comm 1]

/-- A frame (R134): its replies, its events, chip-select high at the end, nothing else. -/
theorem State.frame_eq (bytes : List Byte) (s : State) :
    s.frame bytes = (s.nextReplies bytes.length, { s with
      csN := true, replies := s.replies.drop bytes.length, drawn := s.drawn + bytes.length,
      trace := s.trace ++ frameEvents bytes (s.nextReplies bytes.length) }) := by
  have h := State.nextReplies_congr (s := s) (t := s.csAssert) rfl rfl bytes.length
  simp only [State.frame, State.xferAll_eq, h]
  simp [State.csAssert, State.csDeassert, State.emit, frameEvents]

/-- A read frame (R112): the second reply is kept. -/
theorem State.readFrame_eq (header : Byte) (s : State) :
    s.readFrame header = (s.replyAt 1, { s with
      csN := true, replies := s.replies.drop 2, drawn := s.drawn + 2,
      trace := s.trace ++ frameEvents [header, s.params.dummyOut] [s.replyAt 0, s.replyAt 1] }) := by
  have h2 : s.nextReplies 2 = [s.replyAt 0, s.replyAt 1] := rfl
  simp [State.readFrame, State.frame_eq, h2]

/-- The FIFO load (R195). -/
theorem State.loadFifo_eq (s : State) :
    s.loadFifo = { s with
      csN := true, replies := s.replies.drop 9, drawn := s.drawn + 9,
      trace := s.trace ++ frameEvents (s.params.cmdTxfifoBurst :: s.pkt.bytes) (s.nextReplies 9) } := by
  rw [State.loadFifo, State.frame_eq]; rfl

/-- The data bytes of an entry (R152): `TP` moves past them, `CNT` counts down by their number. -/
theorem State.sendData_eq (data : List Byte) (s : State) :
    s.sendData data = { s with
      tp := s.tp + BitVec.ofNat 16 data.length, cnt := s.cnt - BitVec.ofNat 8 data.length,
      replies := s.replies.drop data.length, drawn := s.drawn + data.length,
      trace := s.trace ++ List.zipWith Event.xfer data (s.nextReplies data.length) } := by
  induction data generalizing s with
  | nil => simp [State.sendData]
  | cons b bs ih =>
    have hn := State.nextReplies_succ (s := s)
      (t := { ({ s with tp := s.tp + 1#16 }.xfer b).2 with cnt := s.cnt - 1#8 })
      (by rw [State.xfer_snd]) (by rw [State.xfer_snd]) bs.length
    simp only [State.sendData, ih, List.length_cons, hn]
    simp only [State.xfer_snd] at hn ⊢
    simp only [List.drop_drop, List.zipWith_cons_cons, List.append_assoc,
      List.singleton_append, Nat.add_assoc, Nat.add_comm 1, State.mk.injEq, true_and,
      and_true, BitVec.ofNat_add, BitVec.sub_sub, BitVec.add_assoc]
    simp only [BitVec.add_comm]
    simp [State.replyAt]

/-- A table entry (R151, R152): one frame, `TP` past the entry, `CNT` 0. -/
theorem State.sendEntry_eq (data : List Byte) (s : State) :
    s.sendEntry data = { s with
      tp := s.tp + BitVec.ofNat 16 (1 + data.length), cnt := 0#8, csN := true,
      replies := s.replies.drop data.length, drawn := s.drawn + data.length,
      trace := s.trace ++ frameEvents data (s.nextReplies data.length) } := by
  have h := State.nextReplies_congr (s := s)
    (t := { s with tp := s.tp + 1#16, cnt := BitVec.ofNat 8 data.length }.csAssert) rfl rfl data.length
  simp only [State.sendEntry, State.sendData_eq, h]
  simp [State.csAssert, State.csDeassert, State.emit, frameEvents, BitVec.ofNat_add, BitVec.add_assoc]

end Sys2Proof.Machine
end

