-- ==== Sys2Proof/Laws/Commands.lean ====
section
/-! SUPPORT. What the operations that commands are made of can answer: a walk as one record update, and
one case lemma each for the command port, the boot check, a table inside a command, the ready poll and a
transmit. -/

namespace Sys2Proof.Machine

theorem State.nextReplies_take (s : State) (m n : Nat) (h : m ≤ n) :
    (s.nextReplies n).take m = s.nextReplies m := by
  simp [State.nextReplies, ← List.map_take, List.take_range, Nat.min_eq_left h]

theorem State.nextReplies_drop {s t : State} (j : Nat) (hr : t.replies = s.replies.drop j)
    (hd : t.drawn = s.drawn + j) (n : Nat) : (s.nextReplies (j + n)).drop j = t.nextReplies n := by
  refine List.ext_getElem (by simp) fun k h1 h2 => ?_
  simp [State.nextReplies, State.replyAt_drop j hr hd]

@[simp] theorem tableTransfers_nil : tableTransfers [] = 0 := rfl

@[simp] theorem tableTransfers_cons (d : List Byte) (ds : List (List Byte)) :
    tableTransfers (d :: ds) = d.length + tableTransfers ds := rfl

@[simp] theorem tableLength_nil : tableLength [] = 1 := rfl

@[simp] theorem tableLength_cons (d : List Byte) (ds : List (List Byte)) :
    tableLength (d :: ds) = 1 + d.length + tableLength ds := by
  simp [tableLength, Nat.add_assoc]

/-- One entry, as the record update claims use. -/
theorem State.sendEntry_afterEntry (data : List Byte) (s : State) :
    s.sendEntry data = s.afterEntry data := State.sendEntry_eq data s

/-- A frame, as the record update claims use. -/
theorem State.frame_afterFrame (outs : List Byte) (s : State) :
    s.frame outs = (s.nextReplies outs.length, s.afterFrame outs) := State.frame_eq outs s

/-- A walk, as the record update claims use (R151). -/
theorem State.walkEntries_eq (entries : List (List Byte)) (s : State) :
    s.walkEntries entries = s.afterWalk s.tp entries := by
  induction entries generalizing s with
  | nil => simp [State.walkEntries, State.fetchEnd, State.afterWalk, tableEvents]
  | cons d ds ih =>
    have h : s.walkEntries (d :: ds) = (s.afterEntry d).walkEntries ds := by
      rw [← State.sendEntry_afterEntry]; rfl
    have htake := s.nextReplies_take d.length (d.length + tableTransfers ds) (by omega)
    have hdrop := State.nextReplies_drop (s := s) (t := s.afterEntry d) d.length rfl rfl
      (tableTransfers ds)
    rw [h, ih]
    simp only [State.afterWalk, tableEvents, tableTransfers_cons, tableLength_cons, htake, hdrop]
    simp [State.afterEntry, BitVec.ofNat_add, BitVec.add_assoc, Nat.add_assoc]

/-- `ApplyTable` on a well-formed table (R151). -/
theorem State.applyTable_eq {s : State} {base : TableAddr} {entries : List (List Byte)}
    (h : s.rom.table base = some entries) : s.applyTable base = some (s.afterWalk base entries) := by
  simp only [State.applyTable, h, Option.map_some, State.walkEntries_eq]
  rfl

theorem State.applyTable_none {s : State} {base : TableAddr} (h : s.rom.table base = none) :
    s.applyTable base = none := by simp [State.applyTable, h]

/-- A table inside a command: on a well-formed one the command goes on from after its walk. -/
theorem State.withTable_eq {s : State} {base : TableAddr} {entries : List (List Byte)}
    (h : s.rom.table base = some entries) (after : State → Host.Outcome State Fault Refusal) :
    s.withTable base after = after (s.afterWalk base entries) := by
  simp [State.withTable, State.applyTable_eq h]

/-- What a table inside a command can answer: if the command goes on to a next state, the table was well
formed and the state is that of what follows the walk. -/
theorem State.withTable_cases {s t : State} {base : TableAddr}
    {after : State → Host.Outcome State Fault Refusal} (h : s.withTable base after = .next t) :
    ∃ entries, s.rom.table base = some entries ∧ after (s.afterWalk base entries) = .next t := by
  cases ht : s.rom.table base with
  | none => rw [State.withTable, State.applyTable_none ht] at h; cases h
  | some entries => exact ⟨entries, rfl, by rwa [State.withTable_eq ht] at h⟩

/-- The command port: the command's rule runs from acceptance, or the word is not accepted. -/
theorem State.onAccept_cases {s t : State} {opcode operand : Byte}
    {rule : State → Host.Outcome State Fault Refusal} (h : s.onAccept opcode operand rule = .next t) :
    (s.busy = true ∧ t = s) ∨ (s.busy = false ∧ rule (s.accept opcode operand) = .next t) := by
  cases hb : s.busy with
  | true => left; simp only [State.onAccept, hb, if_true] at h; cases h; exact ⟨rfl, rfl⟩
  | false => right; simp only [State.onAccept, hb] at h; exact ⟨rfl, h⟩

theorem State.onAccept_idle {s : State} (hb : s.busy = false) (opcode operand : Byte)
    (rule : State → Host.Outcome State Fault Refusal) :
    s.onAccept opcode operand rule = rule (s.accept opcode operand) := by
  simp [State.onAccept, hb]

/-- The boot check: a rule behind it answers a next state only after the first RESET. -/
theorem State.afterBoot_cases {s t : State} {rule : State → Host.Outcome State Fault Refusal}
    (h : s.afterBoot rule = .next t) : s.inited = true ∧ rule s = .next t := by
  cases hi : s.inited with
  | true => simp only [State.afterBoot, hi, if_true] at h; exact ⟨rfl, h⟩
  | false => simp only [State.afterBoot, hi] at h; cases h

theorem State.afterBoot_inited {s : State} (hi : s.inited = true)
    (rule : State → Host.Outcome State Fault Refusal) : s.afterBoot rule = rule s := by
  simp [State.afterBoot, hi]

/-- A read frame, as the record update claims use (R112). -/
theorem State.readFrame_afterFrame (header : Byte) (s : State) :
    s.readFrame header = (s.replyAt 1, s.afterFrame [header, s.params.dummyOut]) :=
  State.readFrame_eq header s

/-- The FIFO load, as the record update claims use (R195). -/
theorem State.loadFifo_afterFrame (s : State) :
    s.loadFifo = s.afterFrame (s.params.cmdTxfifoBurst :: s.pkt.bytes) := State.loadFifo_eq s

/-- One ready poll that answers a next state: either the chip is not ready and one frame has been made, or
it is, and the INIT table has been walked and the command completed (R183, R184). -/
theorem State.pollStatus_cases {s t : State} (h : s.pollStatus = .next t) :
    (chipReady (s.replyAt 1) = false ∧
      t = { s.afterFrame [cmdStatus, s.params.dummyOut] with phase := .frame .status }) ∨
    (chipReady (s.replyAt 1) = true ∧ ∃ entries, s.rom.table s.rom.initBase = some entries ∧
      t = ((s.afterFrame [cmdStatus, s.params.dummyOut]).afterWalk s.rom.initBase entries).complete) := by
  simp only [State.pollStatus, State.readFrame_afterFrame] at h
  cases hr : chipReady (s.replyAt 1) with
  | false => simp only [hr] at h; left; cases h; exact ⟨rfl, rfl⟩
  | true =>
    simp only [hr, if_true] at h
    obtain ⟨entries, ht, h⟩ := State.withTable_cases h
    cases h
    exact .inr ⟨rfl, entries, ht, rfl⟩

/-- One ready poll of a chip that is not ready: one status frame, and the poll goes on (R183). -/
theorem State.pollStatus_notReady {s : State} (hr : chipReady (s.replyAt 1) = false) :
    s.pollStatus = .next { s.afterFrame [cmdStatus, s.params.dummyOut] with phase := .frame .status } := by
  simp [State.pollStatus, State.readFrame_afterFrame, hr]

/-- One ready poll of a chip that is ready: one status frame, INIT, completion (R183, R184). -/
theorem State.pollStatus_ready {s : State} {entries : List (List Byte)}
    (hr : chipReady (s.replyAt 1) = true) (ht : s.rom.table s.rom.initBase = some entries) :
    s.pollStatus = .next
      ((s.afterFrame [cmdStatus, s.params.dummyOut]).afterWalk s.rom.initBase entries).complete := by
  simp only [State.pollStatus, State.readFrame_afterFrame, hr, if_true]
  exact State.withTable_eq (s := s.afterFrame [cmdStatus, s.params.dummyOut]) ht _

/-- A table that is not well formed inside a command (R158). -/
theorem State.withTable_none {s : State} {base : TableAddr} (h : s.rom.table base = none)
    (after : State → Host.Outcome State Fault Refusal) : s.withTable base after = .refused .badTable := by
  simp [State.withTable, State.applyTable_none h]

/-- A ready chip and an INIT table that is not well formed (R158). -/
theorem State.pollStatus_badTable {s : State} (hr : chipReady (s.replyAt 1) = true)
    (ht : s.rom.table s.rom.initBase = none) : s.pollStatus = .refused .badTable := by
  simp only [State.pollStatus, State.readFrame_afterFrame, hr, if_true]
  exact State.withTable_none (s := s.afterFrame [cmdStatus, s.params.dummyOut]) ht _

/-- A transmit that answers a next state: both tables were well formed, and the state is that after
PRE_TX, the FIFO load, POST_LOAD and completion (R193). -/
theorem State.transmit_cases {s t : State} (h : s.transmit = .next t) :
    ∃ pre post, s.rom.table s.rom.preTxBase = some pre ∧ s.rom.table s.rom.postLoadBase = some post ∧
      t = (((s.afterWalk s.rom.preTxBase pre).afterFrame
        (s.params.cmdTxfifoBurst :: s.pkt.bytes)).afterWalk s.rom.postLoadBase post).usePacket.complete := by
  obtain ⟨pre, hpre, h⟩ := State.withTable_cases h
  rw [State.loadFifo_afterFrame] at h
  obtain ⟨post, hpost, h⟩ := State.withTable_cases h
  cases h
  exact ⟨pre, post, hpre, hpost, rfl⟩

/-- A transmit whose two tables are well formed answers that next state (R193). -/
theorem State.transmit_eq {s : State} {pre post : List (List Byte)}
    (hpre : s.rom.table s.rom.preTxBase = some pre) (hpost : s.rom.table s.rom.postLoadBase = some post) :
    s.transmit = .next (((s.afterWalk s.rom.preTxBase pre).afterFrame
      (s.params.cmdTxfifoBurst :: s.pkt.bytes)).afterWalk s.rom.postLoadBase post).usePacket.complete := by
  rw [State.transmit, State.withTable_eq hpre, State.loadFifo_afterFrame]
  exact State.withTable_eq (s := (s.afterWalk s.rom.preTxBase pre).afterFrame
    (s.params.cmdTxfifoBurst :: s.pkt.bytes)) (base := s.rom.postLoadBase) hpost _

/-- A transmit whose PRE_TX or POST_LOAD is not well formed (R158). -/
theorem State.transmit_badTable {s : State}
    (h : s.rom.table s.rom.preTxBase = none ∨ s.rom.table s.rom.postLoadBase = none) :
    s.transmit = .refused .badTable := by
  cases hpre : s.rom.table s.rom.preTxBase with
  | none => exact State.withTable_none hpre _
  | some pre =>
    obtain h | h := h
    · rw [hpre] at h; cases h
    · rw [State.transmit, State.withTable_eq hpre, State.loadFifo_afterFrame]
      exact State.withTable_none (s := (s.afterWalk s.rom.preTxBase pre).afterFrame
        (s.params.cmdTxfifoBurst :: s.pkt.bytes)) h _

/-- The poll does not depend on the position it is taken from. -/
theorem State.pollStatus_phase (s : State) (p : Phase) :
    State.pollStatus { s with phase := p } = s.pollStatus := by
  cases h : chipReady (s.replyAt 1) with
  | false =>
    rw [State.pollStatus_notReady h, State.pollStatus_notReady (s := { s with phase := p }) h]
    rfl
  | true =>
    cases ht : s.rom.table s.rom.initBase with
    | none => rw [State.pollStatus_badTable h ht, State.pollStatus_badTable (s := { s with phase := p }) h ht]
    | some entries =>
      rw [State.pollStatus_ready h ht, State.pollStatus_ready (s := { s with phase := p }) h ht]
      rfl

/-- Nor does a transmit. -/
theorem State.transmit_phase (s : State) (p : Phase) :
    State.transmit { s with phase := p } = s.transmit := by
  cases h1 : s.rom.table s.rom.preTxBase with
  | none =>
    rw [State.transmit_badTable (.inl h1), State.transmit_badTable (s := { s with phase := p }) (.inl h1)]
  | some pre =>
    cases h2 : s.rom.table s.rom.postLoadBase with
    | none =>
      rw [State.transmit_badTable (.inr h2),
        State.transmit_badTable (s := { s with phase := p }) (.inr h2)]
    | some post =>
      rw [State.transmit_eq h1 h2, State.transmit_eq (s := { s with phase := p }) h1 h2]
      rfl

end Sys2Proof.Machine
end

