-- ==== Sys2Proof/Laws/Encoding.lean ====
section
/-! SUPPORT. The fields of a command word, and the table decoder on the bytes of one entry. -/

namespace Sys2Proof

theorem commandWord_toNat (a b : Byte) : (commandWord a b).toNat = a.toNat * 256 + b.toNat := by
  rw [commandWord, BitVec.toNat_append, Nat.shiftLeft_eq, Nat.mul_comm,
    ← Nat.two_pow_add_eq_or_of_lt b.isLt, Nat.mul_comm]

theorem cmdOpcode_toNat (w : CmdWord) : (cmdOpcode w).toNat = w.toNat / 256 := by
  have := w.isLt
  simp [cmdOpcode, BitVec.extractLsb'_toNat, Nat.shiftRight_eq_div_pow]
  omega

theorem cmdOperand_toNat (w : CmdWord) : (cmdOperand w).toNat = w.toNat % 256 := by
  simp [cmdOperand, BitVec.extractLsb'_toNat]

@[simp] theorem cmdOpcode_commandWord (a b : Byte) : cmdOpcode (commandWord a b) = a := by
  apply BitVec.eq_of_toNat_eq
  rw [cmdOpcode_toNat, commandWord_toNat]
  have := b.isLt
  omega

@[simp] theorem cmdOperand_commandWord (a b : Byte) : cmdOperand (commandWord a b) = b := by
  apply BitVec.eq_of_toNat_eq
  rw [cmdOperand_toNat, commandWord_toNat]
  have := b.isLt
  omega

/-- A command word is its two fields (R96). -/
@[simp] theorem commandWord_fields (w : CmdWord) : commandWord (cmdOpcode w) (cmdOperand w) = w := by
  apply BitVec.eq_of_toNat_eq
  rw [commandWord_toNat, cmdOperand_toNat, cmdOpcode_toNat]
  omega

/-- The decoder on a length byte in range and its data bytes (R91, R93). -/
theorem decodeEntry_entryBytes (data rest : List Byte) (h1 : 1 ≤ data.length) (h2 : data.length ≤ 255) :
    decodeEntry (entryBytes data ++ rest) = .ok (.txn data, rest) := by
  have hn : (BitVec.ofNat 8 data.length).toNat = data.length := by simp; omega
  have h0 : BitVec.ofNat 8 data.length ≠ 0#8 := by
    intro h
    rw [h] at hn
    simp only [BitVec.toNat_ofNat, Nat.zero_mod] at hn
    omega
  simp [decodeEntry, entryBytes, h0, hn]

end Sys2Proof
end

