-- ==== Sys2Proof/Laws/Memory.lean ====
section
/-! SUPPORT. Memory: reading, binding a run of bytes, and the canonical form, which every operation
keeps. -/

namespace Sys2Proof.Machine

@[simp] theorem Memory.read_nil (a : Nat) : Memory.read [] a = none := rfl

theorem Memory.read_cons (k : Nat) (b : Byte) (m : Memory) (a : Nat) :
    Memory.read ((k, b) :: m) a = if k = a then some b else m.read a := rfl

/-- No cell of `m` at address `a`: nothing to read there. -/
theorem Memory.read_eq_none {m : Memory} {a : Nat} (h : ∀ c ∈ m, c.1 ≠ a) : m.read a = none := by
  induction m with
  | nil => rfl
  | cons c m ih =>
    obtain ⟨k, b⟩ := c
    rw [Memory.read_cons, if_neg (h (k, b) (by simp)), ih fun c hc => h c (by simp [hc])]

/-- Reading skips a part that has no cell at the address. -/
theorem Memory.read_append_left {m n : Memory} {a : Nat} (h : ∀ c ∈ m, c.1 ≠ a) :
    Memory.read (m ++ n) a = n.read a := by
  induction m with
  | nil => rfl
  | cons c m ih =>
    obtain ⟨k, b⟩ := c
    rw [List.cons_append, Memory.read_cons, if_neg (h (k, b) (by simp)),
      ih fun c hc => h c (by simp [hc])]

/-- Reading finds what the first part holds, if it holds the address. -/
theorem Memory.read_append_right {m n : Memory} {a : Nat} (h : ∀ c ∈ n, c.1 ≠ a) :
    Memory.read (m ++ n) a = m.read a := by
  induction m with
  | nil => exact Memory.read_eq_none h
  | cons c m ih => obtain ⟨k, b⟩ := c; simp only [List.cons_append, Memory.read_cons, ih]

theorem Memory.mem_image {a : Nat} {bs : List Byte} {c : Host.Cell} (h : c ∈ Memory.image a bs) :
    a ≤ c.1 ∧ c.1 < a + bs.length := by
  induction bs generalizing a with
  | nil => simp [Memory.image] at h
  | cons b bs ih =>
    rcases List.mem_cons.1 h with rfl | h
    · simp
    · have := ih h
      simp only [List.length_cons]
      omega

/-- A run of bytes is in canonical form. -/
theorem Memory.image_wf (a : Nat) (bs : List Byte) : (Memory.image a bs).wf := by
  induction bs generalizing a with
  | nil => exact List.Pairwise.nil
  | cons b bs ih =>
    refine List.Pairwise.cons (fun c hc => ?_) (ih (a + 1))
    have := Memory.mem_image hc
    show a < c.1
    omega

/-- Reading inside a run of bytes. -/
theorem Memory.read_image (a : Nat) (bs : List Byte) (k : Nat) :
    (Memory.image a bs).read (a + k) = bs[k]? := by
  induction bs generalizing a k with
  | nil => simp [Memory.image]
  | cons b bs ih =>
    cases k with
    | zero => simp [Memory.image, Memory.read_cons]
    | succ k =>
      rw [Memory.image, Memory.read_cons, if_neg (by omega)]
      have := ih (a + 1) k
      rwa [show a + 1 + k = a + (k + 1) by omega] at this

/-- Binding a run of ROM bytes keeps the canonical form. -/
theorem Memory.load_wf {m : Memory} (h : m.wf) (bs : List Byte) : (m.load bs).wf := by
  unfold Memory.load Memory.wf
  refine List.pairwise_append.2 ⟨image_wf 0 bs, h.filter _, fun x hx y hy => ?_⟩
  have := Memory.mem_image hx
  have hy := (List.mem_filter.1 hy).2
  simp only [decide_eq_true_eq] at hy
  omega

/-- After a run of bytes is bound, reading inside it gives the bytes. -/
theorem Memory.read_load_inside (m : Memory) (bs : List Byte) {k : Nat} (h : k < bs.length) :
    (m.load bs).read k = bs[k]? := by
  unfold Memory.load
  rw [Memory.read_append_right]
  · simpa using Memory.read_image 0 bs k
  · intro c hc
    have hc := (List.mem_filter.1 hc).2
    simp only [decide_eq_true_eq] at hc
    omega

/-- A filter that keeps every cell at an address does not change what is read there. -/
theorem Memory.read_filter (m : Memory) (p : Host.Cell → Bool) (a : Nat) (h : ∀ b, p (a, b) = true) :
    Memory.read (m.filter p) a = m.read a := by
  induction m with
  | nil => rfl
  | cons c m ih =>
    obtain ⟨k, b⟩ := c
    by_cases hk : k = a
    · subst hk
      simp [h b, Memory.read_cons]
    · cases hp : p (k, b) <;> simp [hp, Memory.read_cons, hk, ih]

/-- After a run of bytes is bound, every address outside it reads as before. -/
theorem Memory.read_load_outside (m : Memory) (bs : List Byte) {k : Nat} (h : bs.length ≤ k) :
    (m.load bs).read k = m.read k := by
  unfold Memory.load
  rw [Memory.read_append_left, Memory.read_filter]
  · simpa using h
  · intro c hc
    have := Memory.mem_image hc
    omega

/-- Nothing is readable at or above `ROM_SIZE` (R61). -/
theorem TableRom.tblRead_outside (r : TableRom) {a : Nat} (h : r.size.val ≤ a) : r.tblRead a = none :=
  if_neg (by omega)

/-- The memory after hardware reset is in canonical form. -/
theorem State.reset_wf : State.reset.rom.cells.wf := Config.block.romWf

/-- Placing a table instruction keeps the canonical form. -/
theorem State.placeEntry_wf {s : State} (h : s.rom.cells.wf) (bytes : List Byte) :
    (s.placeEntry bytes).rom.cells.wf := Memory.load_wf h bytes

end Sys2Proof.Machine
end

