-- ==== Sys2Proof/Laws/PerInstr.lean ====
section
/-! SUPPORT. Statements made per instruction. The family `EncodedSize`: how many bytes an instruction's
encoding is, by constructor (30_encoding.md R91, R92, R96, R103). -/

namespace Sys2Proof.Laws

/-- Bytes of a code: a command word is two, an entry as many as it lists. -/
def codeSize : Code → Nat
  | .command _ => 2
  | .entry bytes => bytes.length

/-- Bytes of an instruction as the encoding tables give them. -/
def instrSize : Instr → Nat
  | .reset _ => 2
  | .applyTable _ => 2
  | .readReg _ => 2
  | .readStatus _ => 2
  | .buildPacket _ => 2
  | .transmitPacket _ => 2
  | .sendMotorPower _ => 2
  | .unassigned _ _ => 2
  | .tblEnd => 1
  | .txn data => 1 + data.length
  | .strobe _ => 2
  | .wreg pairs => 1 + 2 * pairs.length
  | .burst _ values => 2 + values.length

theorem wregBytes_length (pairs : List (Byte × Byte)) : (wregBytes pairs).length = 2 * pairs.length := by
  induction pairs with
  | nil => rfl
  | cons p ps ih => simp only [wregBytes, List.flatMap_cons, List.length_append] at ih ⊢; simp [ih]; omega

theorem entryBytes_length (data : List Byte) : (entryBytes data).length = 1 + data.length := by
  simp [entryBytes, Nat.add_comm]

/-- The encoding has the size the tables give. -/
def EncodedSize.Statement (i : Instr) : Prop := codeSize (encode i) = instrSize i

theorem EncodedSize.reset (operand : Byte) : EncodedSize.Statement (.reset operand) := rfl
theorem EncodedSize.applyTable (id : Byte) : EncodedSize.Statement (.applyTable id) := rfl
theorem EncodedSize.readReg (addr : Byte) : EncodedSize.Statement (.readReg addr) := rfl
theorem EncodedSize.readStatus (operand : Byte) : EncodedSize.Statement (.readStatus operand) := rfl
theorem EncodedSize.buildPacket (power : Byte) : EncodedSize.Statement (.buildPacket power) := rfl
theorem EncodedSize.transmitPacket (operand : Byte) : EncodedSize.Statement (.transmitPacket operand) := rfl
theorem EncodedSize.sendMotorPower (power : Byte) : EncodedSize.Statement (.sendMotorPower power) := rfl
theorem EncodedSize.unassigned (opcode operand : Byte) :
    EncodedSize.Statement (.unassigned opcode operand) := rfl
theorem EncodedSize.tblEnd : EncodedSize.Statement .tblEnd := rfl
theorem EncodedSize.txn (data : List Byte) : EncodedSize.Statement (.txn data) := entryBytes_length data
theorem EncodedSize.strobe (c : Byte) : EncodedSize.Statement (.strobe c) := rfl
theorem EncodedSize.wreg (pairs : List (Byte × Byte)) : EncodedSize.Statement (.wreg pairs) := by
  simp [EncodedSize.Statement, encode, codeSize, instrSize, entryBytes_length, wregBytes_length]
theorem EncodedSize.burst (header : Byte) (values : List Byte) :
    EncodedSize.Statement (.burst header values) := by
  simp [EncodedSize.Statement, encode, codeSize, instrSize, entryBytes_length]; omega

end Sys2Proof.Laws
end

