-- ==== Sys2Proof/Laws/Rom.lean ====
section
/-! SUPPORT. Reading runs of ROM bytes, and the bytes of a table. -/

namespace Sys2Proof.Machine

theorem TableRom.tblRead_lt {r : TableRom} {a : Nat} {b : Byte} (h : r.tblRead a = some b) :
    a < r.size.val := by
  unfold TableRom.tblRead at h
  split at h
  · assumption
  · cases h

/-- What a run of readable bytes shows is what the ROM holds. -/
theorem TableRom.bytesFrom_getElem (r : TableRom) (k a j : Nat) (b : Byte)
    (h : (r.bytesFrom k a)[j]? = some b) : r.tblRead (a + j) = some b := by
  induction k generalizing a j with
  | zero => simp [TableRom.bytesFrom] at h
  | succ k ih =>
    unfold TableRom.bytesFrom at h
    split at h
    · rename_i c hc
      cases j with
      | zero => simp only [List.getElem?_cons_zero, Option.some.injEq] at h; subst h; exact hc
      | succ j =>
        have := ih (a + 1) j (by simpa using h)
        rwa [show a + (j + 1) = a + 1 + j by omega]
    · simp at h

/-- A run of readable bytes begins with what the ROM holds there. -/
theorem TableRom.bytesFrom_prefix (r : TableRom) (bytes : List Byte) (k a : Nat) (hl : bytes.length ≤ k)
    (h : ∀ j b, bytes[j]? = some b → r.tblRead (a + j) = some b) :
    ∃ rest, r.bytesFrom k a = bytes ++ rest := by
  induction bytes generalizing k a with
  | nil => exact ⟨_, rfl⟩
  | cons c bytes ih =>
    cases k with
    | zero => simp at hl
    | succ k =>
      have h0 := h 0 c rfl
      obtain ⟨rest, hr⟩ := ih k (a + 1) (by simpa using hl) fun j b hj => by
        have := h (j + 1) b (by simpa using hj)
        rwa [show a + 1 + j = a + (j + 1) by omega]
      refine ⟨rest, ?_⟩
      simp only [Nat.add_zero] at h0
      simp [TableRom.bytesFrom, h0, hr]

/-- What a ROM spells is inside the address space. -/
theorem TableRom.spells_lt {r : TableRom} {a : Nat} {bytes : List Byte} (h : r.spells a bytes) {k : Nat}
    (hk : k < bytes.length) : a + k < 65536 := by
  have := r.size.isLt
  have := TableRom.tblRead_lt (h k _ (List.getElem?_eq_getElem hk))
  omega

theorem TableRom.spells_append {r : TableRom} {a : Nat} {xs ys : List Byte} :
    r.spells a (xs ++ ys) ↔ r.spells a xs ∧ r.spells (a + xs.length) ys := by
  refine ⟨fun h => ⟨fun k b hk => h k b ?_, fun k b hk => ?_⟩, fun h k b hk => ?_⟩
  · rw [List.getElem?_append_left (List.getElem?_eq_some_iff.1 hk).1, hk]
  · rw [Nat.add_assoc]
    apply h
    rw [List.getElem?_append_right (by omega), Nat.add_sub_cancel_left, hk]
  · rcases Nat.lt_or_ge k xs.length with hlt | hge
    · exact h.1 k b (by rwa [List.getElem?_append_left hlt] at hk)
    · have := h.2 (k - xs.length) b (by rwa [List.getElem?_append_right hge] at hk)
      rwa [show a + xs.length + (k - xs.length) = a + k by omega] at this

theorem TableRom.spells_cons {r : TableRom} {a : Nat} {b : Byte} {bytes : List Byte}
    (h : r.spells a (b :: bytes)) : r.tblRead a = some b ∧ r.spells (a + 1) bytes :=
  ⟨h 0 b rfl, (TableRom.spells_append.1 (show r.spells a ([b] ++ bytes) from h)).2⟩

theorem tableBytes_cons (d : List Byte) (ds : List (List Byte)) :
    tableBytes (d :: ds) = entryBytes d ++ tableBytes ds := by simp [tableBytes]

theorem tableBytes_length (entries : List (List Byte)) :
    (tableBytes entries).length = tableLength entries := by
  induction entries with
  | nil => rfl
  | cons d ds ih =>
    rw [tableBytes_cons, List.length_append, ih, tableLength_cons]
    simp [entryBytes, Nat.add_comm]

theorem tableLength_ge (entries : List (List Byte)) : entries.length + 1 ≤ tableLength entries := by
  induction entries with
  | nil => simp
  | cons d ds ih => rw [tableLength_cons, List.length_cons]; omega

/-- The entry reader gives back the entries whose bytes it is given (R90, R156). -/
theorem tableEntries_tableBytes (entries : List (List Byte)) (fuel : Nat) (rest : List Byte)
    (h : ∀ d ∈ entries, 1 ≤ d.length ∧ d.length ≤ 255) (hf : entries.length < fuel) :
    tableEntries fuel (tableBytes entries ++ rest) = some entries := by
  induction entries generalizing fuel with
  | nil =>
    cases fuel with
    | zero => simp at hf
    | succ f => rfl
  | cons d ds ih =>
    cases fuel with
    | zero => simp at hf
    | succ f =>
      have hd := h d (by simp)
      rw [tableBytes_cons, List.append_assoc, tableEntries,
        decodeEntry_entryBytes d (tableBytes ds ++ rest) hd.1 hd.2]
      simp [ih f (fun d hd => h d (by simp [hd])) (by simpa using hf)]

end Sys2Proof.Machine
end

