-- ==== Sys2Proof/Laws/Step.lean ====
section
/-! SUPPORT. What a step can do: one equation per position, one case lemma for a command that begins, one
for the step. Invariants are derived from these without unfolding the step again. -/

namespace Sys2Proof.Machine

/-- The first two steps of RESET, as the record update claims use (R180). -/
theorem State.accept_busConfigure_pinInit (operand : Byte) (s : State) :
    (s.accept Opcode.reset operand).busConfigure.pinInit = s.afterPinInit operand := by
  simp [State.accept, State.busConfigure, State.pinInit, State.pinOutput, State.pinHigh, State.emit,
    State.afterPinInit]

/-! Each command's arm, as the command port over the command's rule. -/

theorem exec_reset (x : Byte) (s : State) : exec (.reset x) s =
    s.onAccept Opcode.reset x fun s => s.busConfigure.pinInit.pollStatus := rfl

theorem exec_applyTable (x : Byte) (s : State) : exec (.applyTable x) s =
    s.onAccept Opcode.applyTable x fun s => s.afterBoot fun s =>
      match s.rom.base s.arg with
      | none => .refused .badTableId
      | some base => s.withTable base fun t => .next t.complete := rfl

theorem exec_readReg (x : Byte) (s : State) : exec (.readReg x) s =
    s.onAccept Opcode.readReg x fun s => s.afterBoot fun s =>
      .next { (s.readFrame (readHeader s.arg)).2 with
              res := (s.readFrame (readHeader s.arg)).1 }.complete := rfl

theorem exec_readStatus (x : Byte) (s : State) : exec (.readStatus x) s =
    s.onAccept Opcode.readStatus x fun s => s.afterBoot fun s =>
      .next { (s.readFrame cmdStatus).2 with res := (s.readFrame cmdStatus).1 }.complete := rfl

theorem exec_buildPacket (x : Byte) (s : State) : exec (.buildPacket x) s =
    s.onAccept Opcode.buildPacket x fun s => .next (s.buildPacket s.arg).complete := rfl

theorem exec_transmitPacket (x : Byte) (s : State) : exec (.transmitPacket x) s =
    s.onAccept Opcode.transmitPacket x fun s => s.afterBoot fun s =>
      if s.pktValid then s.transmit else .refused .noPacket := rfl

theorem exec_sendMotorPower (x : Byte) (s : State) : exec (.sendMotorPower x) s =
    s.onAccept Opcode.sendMotorPower x fun s => s.afterBoot fun s =>
      (s.buildPacket s.arg).transmit := rfl

/-- The rule of an instruction behind the command port runs from acceptance when `BUSY` = 0. -/
theorem State.onAccept_next {s t : State} {opcode operand : Byte}
    {rule : State → Host.Outcome State Fault Refusal} (hb : s.busy = false)
    (h : s.onAccept opcode operand rule = .next t) : rule (s.accept opcode operand) = .next t := by
  rwa [State.onAccept_idle hb] at h

/-! Each command's rule once it is accepted after boot. -/

theorem exec_reset_idle {x : Byte} {s : State} (hb : s.busy = false) :
    exec (.reset x) s = (s.afterPinInit x).pollStatus := by
  rw [exec_reset, State.onAccept_idle hb, State.accept_busConfigure_pinInit]

theorem exec_applyTable_idle {x : Byte} {s : State} {base : TableAddr} (hb : s.busy = false)
    (hi : s.inited = true) (hbase : s.rom.base x = some base) :
    exec (.applyTable x) s =
      (s.accept Opcode.applyTable x).withTable base fun t => .next t.complete := by
  rw [exec_applyTable, State.onAccept_idle hb,
    State.afterBoot_inited (s := s.accept Opcode.applyTable x) hi]
  simp only [State.accept_rom, State.accept_arg, hbase]

theorem exec_transmitPacket_idle {x : Byte} {s : State} (hb : s.busy = false) (hi : s.inited = true)
    (hv : s.pktValid = true) :
    exec (.transmitPacket x) s = (s.accept Opcode.transmitPacket x).transmit := by
  rw [exec_transmitPacket, State.onAccept_idle hb,
    State.afterBoot_inited (s := s.accept Opcode.transmitPacket x) hi]
  simp [hv]

theorem exec_sendMotorPower_idle {x : Byte} {s : State} (hb : s.busy = false) (hi : s.inited = true) :
    exec (.sendMotorPower x) s =
      ((s.accept Opcode.sendMotorPower x).buildPacket x).transmit := by
  rw [exec_sendMotorPower, State.onAccept_idle hb,
    State.afterBoot_inited (s := s.accept Opcode.sendMotorPower x) hi]
  rfl

/-- A run whose first step answers `t` goes on from `t`. -/
theorem core_run_succ {s t : State} (n : Nat) (h : step s = .next t) :
    Sys2Proof.core.run (n + 1) s = Sys2Proof.core.run n t := by
  have hs : Sys2Proof.core.step s = .next t := h
  simp only [Host.Core.run, hs]

/-- Runs compose: `m` steps that answer `t`, and then `n` more. -/
theorem core_run_add (M : Host.Core) (m n : Nat) {s t : M.State} (h : M.run m s = .next t) :
    M.run (m + n) s = M.run n t := by
  induction m generalizing s with
  | zero => rw [Nat.zero_add]; cases h; rfl
  | succ m ih =>
    rw [Nat.add_right_comm]
    show (match M.step s with
      | .next s' => M.run (m + n) s' | .fault r => .fault r | .refused r => .refused r) = _
    unfold Host.Core.run at h
    cases hq : M.step s with
    | next q => rw [hq] at h; exact ih h
    | fault r => rw [hq] at h; cases h
    | refused r => rw [hq] at h; cases h

theorem execReset_next {operand : Byte} {s t : State} (hb : s.busy = false)
    (h : exec (.reset operand) s = .next t) : (s.afterPinInit operand).pollStatus = .next t := by
  rw [exec_reset] at h
  have h := State.onAccept_next hb h
  rwa [State.accept_busConfigure_pinInit] at h

theorem execApplyTable_next {id : Byte} {s t : State} (hb : s.busy = false)
    (h : exec (.applyTable id) s = .next t) :
    s.inited = true ∧ ∃ base entries, s.rom.base id = some base ∧ s.rom.table base = some entries ∧
      t = ((s.accept Opcode.applyTable id).afterWalk base entries).complete := by
  rw [exec_applyTable] at h
  obtain ⟨hi, h⟩ := State.afterBoot_cases (State.onAccept_next hb h)
  refine ⟨hi, ?_⟩
  split at h
  · cases h
  · rename_i base hbase
    obtain ⟨entries, ht, h⟩ := State.withTable_cases h
    cases h
    exact ⟨base, entries, hbase, ht, rfl⟩

theorem execReadReg_next {addr : Byte} {s t : State} (hb : s.busy = false)
    (h : exec (.readReg addr) s = .next t) :
    s.inited = true ∧
      t = { (s.accept Opcode.readReg addr).afterFrame [readHeader addr, s.params.dummyOut] with
            res := s.replyAt 1 }.complete := by
  rw [exec_readReg] at h
  obtain ⟨hi, h⟩ := State.afterBoot_cases (State.onAccept_next hb h)
  rw [State.readFrame_afterFrame] at h
  cases h
  exact ⟨hi, rfl⟩

theorem execReadStatus_next {operand : Byte} {s t : State} (hb : s.busy = false)
    (h : exec (.readStatus operand) s = .next t) :
    s.inited = true ∧
      t = { (s.accept Opcode.readStatus operand).afterFrame [cmdStatus, s.params.dummyOut] with
            res := s.replyAt 1 }.complete := by
  rw [exec_readStatus] at h
  obtain ⟨hi, h⟩ := State.afterBoot_cases (State.onAccept_next hb h)
  rw [State.readFrame_afterFrame] at h
  cases h
  exact ⟨hi, rfl⟩

theorem execBuildPacket_next {power : Byte} {s t : State} (hb : s.busy = false)
    (h : exec (.buildPacket power) s = .next t) :
    t = ((s.accept Opcode.buildPacket power).buildPacket power).complete := by
  rw [exec_buildPacket] at h
  have h := State.onAccept_next hb h
  cases h
  rfl

theorem execTransmitPacket_next {operand : Byte} {s t : State} (hb : s.busy = false)
    (h : exec (.transmitPacket operand) s = .next t) :
    s.inited = true ∧ s.pktValid = true ∧
      (s.accept Opcode.transmitPacket operand).transmit = .next t := by
  rw [exec_transmitPacket] at h
  obtain ⟨hi, h⟩ := State.afterBoot_cases (State.onAccept_next hb h)
  split at h
  · rename_i hv; exact ⟨hi, hv, h⟩
  · cases h

theorem execSendMotorPower_next {power : Byte} {s t : State} (hb : s.busy = false)
    (h : exec (.sendMotorPower power) s = .next t) :
    s.inited = true ∧
      ((s.accept Opcode.sendMotorPower power).buildPacket power).transmit = .next t := by
  rw [exec_sendMotorPower] at h
  exact State.afterBoot_cases (State.onAccept_next hb h)

/-- A command accepted with `BUSY` = 0 that answers a next state: which command it was, what it required,
and what it did. -/
theorem command_next_cases {opcode operand : Byte} {s t : State} (hb : s.busy = false)
    (h : exec (commandOf opcode operand) s = .next t) :
    (opcode = Opcode.reset ∧ (s.afterPinInit operand).pollStatus = .next t) ∨
    (opcode = Opcode.applyTable ∧ s.inited = true ∧ ∃ base entries, s.rom.base operand = some base ∧
      s.rom.table base = some entries ∧ t = ((s.accept opcode operand).afterWalk base entries).complete) ∨
    (opcode = Opcode.readReg ∧ s.inited = true ∧
      t = { (s.accept opcode operand).afterFrame [readHeader operand, s.params.dummyOut] with
            res := s.replyAt 1 }.complete) ∨
    (opcode = Opcode.readStatus ∧ s.inited = true ∧
      t = { (s.accept opcode operand).afterFrame [cmdStatus, s.params.dummyOut] with
            res := s.replyAt 1 }.complete) ∨
    (opcode = Opcode.buildPacket ∧ t = ((s.accept opcode operand).buildPacket operand).complete) ∨
    (opcode = Opcode.transmitPacket ∧ s.inited = true ∧ s.pktValid = true ∧
      (s.accept opcode operand).transmit = .next t) ∨
    (opcode = Opcode.sendMotorPower ∧ s.inited = true ∧
      ((s.accept opcode operand).buildPacket operand).transmit = .next t) := by
  unfold commandOf at h
  split at h
  · rename_i ho; subst ho; exact .inl ⟨rfl, execReset_next hb h⟩
  split at h
  · rename_i ho; subst ho; exact .inr (.inl ⟨rfl, execApplyTable_next hb h⟩)
  split at h
  · rename_i ho; subst ho; exact .inr (.inr (.inl ⟨rfl, execReadReg_next hb h⟩))
  split at h
  · rename_i ho; subst ho; exact .inr (.inr (.inr (.inl ⟨rfl, execReadStatus_next hb h⟩)))
  split at h
  · rename_i ho; subst ho; exact .inr (.inr (.inr (.inr (.inl ⟨rfl, execBuildPacket_next hb h⟩))))
  split at h
  · rename_i ho; subst ho
    exact .inr (.inr (.inr (.inr (.inr (.inl ⟨rfl, execTransmitPacket_next hb h⟩)))))
  split at h
  · rename_i ho; subst ho
    exact .inr (.inr (.inr (.inr (.inr (.inr ⟨rfl, execSendMotorPower_next hb h⟩)))))
  · cases h

/-! ### How a command begins -/

/-- A command that begins with `BUSY` = 0: which command it was, what it required, and where it stands. -/
theorem begin_next_cases {opcode operand : Byte} {s t : State} (hb : s.busy = false)
    (h : State.begin (commandOf opcode operand) s = .next t) :
    (opcode = Opcode.reset ∧ t = { s.accept opcode operand with phase := .configure }) ∨
    (opcode = Opcode.applyTable ∧ s.inited = true ∧ (s.rom.base operand).isSome = true ∧
      t = { s.accept opcode operand with phase := .table .apply }) ∨
    (opcode = Opcode.readReg ∧ s.inited = true ∧
      t = { s.accept opcode operand with phase := .frame .readReg }) ∨
    (opcode = Opcode.readStatus ∧ s.inited = true ∧
      t = { s.accept opcode operand with phase := .frame .readStatus }) ∨
    (opcode = Opcode.buildPacket ∧ t = ((s.accept opcode operand).buildPacket operand).complete) ∨
    (opcode = Opcode.transmitPacket ∧ s.inited = true ∧ s.pktValid = true ∧
      t = { s.accept opcode operand with phase := .table .preTx }) ∨
    (opcode = Opcode.sendMotorPower ∧ s.inited = true ∧
      t = { (s.accept opcode operand).buildPacket operand with phase := .table .preTx }) := by
  unfold commandOf at h
  split at h
  · rename_i ho; subst ho
    rw [State.begin] at h
    have h := State.onAccept_next hb h
    cases h; exact .inl ⟨rfl, rfl⟩
  split at h
  · rename_i ho; subst ho
    rw [State.begin] at h
    obtain ⟨hi, h⟩ := State.afterBoot_cases (State.onAccept_next hb h)
    split at h
    · cases h
    · rename_i base hbase
      cases h
      exact .inr (.inl ⟨rfl, hi, Option.isSome_of_eq_some hbase, rfl⟩)
  split at h
  · rename_i ho; subst ho
    rw [State.begin] at h
    obtain ⟨hi, h⟩ := State.afterBoot_cases (State.onAccept_next hb h)
    cases h; exact .inr (.inr (.inl ⟨rfl, hi, rfl⟩))
  split at h
  · rename_i ho; subst ho
    rw [State.begin] at h
    obtain ⟨hi, h⟩ := State.afterBoot_cases (State.onAccept_next hb h)
    cases h; exact .inr (.inr (.inr (.inl ⟨rfl, hi, rfl⟩)))
  split at h
  · rename_i ho; subst ho; exact .inr (.inr (.inr (.inr (.inl ⟨rfl, execBuildPacket_next hb h⟩))))
  split at h
  · rename_i ho; subst ho
    rw [State.begin] at h
    obtain ⟨hi, h⟩ := State.afterBoot_cases (State.onAccept_next hb h)
    split at h
    · rename_i hv
      cases h
      exact .inr (.inr (.inr (.inr (.inr (.inl ⟨rfl, hi, hv, rfl⟩)))))
    · cases h
  split at h
  · rename_i ho; subst ho
    rw [State.begin] at h
    obtain ⟨hi, h⟩ := State.afterBoot_cases (State.onAccept_next hb h)
    cases h; exact .inr (.inr (.inr (.inr (.inr (.inr ⟨rfl, hi, rfl⟩)))))
  · cases h

/-- A rule behind the boot check that is refused: before the first RESET, or by the rule. -/
theorem State.afterBoot_refused {s : State} {r : Refusal}
    {rule : State → Host.Outcome State Fault Refusal} (h : s.afterBoot rule = .refused r) :
    (r = .beforeReset ∧ s.inited = false) ∨ (s.inited = true ∧ rule s = .refused r) := by
  cases hi : s.inited with
  | true => simp only [State.afterBoot, hi, if_true] at h; exact .inr ⟨rfl, h⟩
  | false =>
    simp only [State.afterBoot, hi] at h
    cases h; exact .inl ⟨rfl, rfl⟩

/-- A command word that is refused with `BUSY` = 0, and why (R236, R239). -/
theorem begin_refused_cases {opcode operand : Byte} {s : State} {r : Refusal} (hb : s.busy = false)
    (h : State.begin (commandOf opcode operand) s = .refused r) :
    (r = .beforeReset ∧ s.inited = false) ∨
    (r = .badTableId ∧ opcode = Opcode.applyTable ∧ s.rom.base operand = none) ∨
    (r = .noPacket ∧ opcode = Opcode.transmitPacket ∧ s.pktValid = false) ∨
    (r = .badOpcode ∧ opcode ≠ Opcode.reset ∧ opcode ≠ Opcode.applyTable ∧ opcode ≠ Opcode.readReg ∧
      opcode ≠ Opcode.readStatus ∧ opcode ≠ Opcode.buildPacket ∧ opcode ≠ Opcode.transmitPacket ∧
      opcode ≠ Opcode.sendMotorPower) := by
  unfold commandOf at h
  split at h
  · rw [State.begin, State.onAccept_idle hb] at h; cases h
  split at h
  · rename_i ho; subst ho
    rw [State.begin, State.onAccept_idle hb] at h
    obtain ⟨hr, hi⟩ | ⟨_, h⟩ := State.afterBoot_refused h
    · exact .inl ⟨hr, hi⟩
    · split at h
      · rename_i hbase; cases h; exact .inr (.inl ⟨rfl, rfl, hbase⟩)
      · cases h
  split at h
  · rw [State.begin, State.onAccept_idle hb] at h
    obtain ⟨hr, hi⟩ | ⟨_, h⟩ := State.afterBoot_refused h
    · exact .inl ⟨hr, hi⟩
    · cases h
  split at h
  · rw [State.begin, State.onAccept_idle hb] at h
    obtain ⟨hr, hi⟩ | ⟨_, h⟩ := State.afterBoot_refused h
    · exact .inl ⟨hr, hi⟩
    · cases h
  split at h
  · rw [State.begin, exec_buildPacket, State.onAccept_idle hb] at h; cases h
  split at h
  · rename_i ho; subst ho
    rw [State.begin, State.onAccept_idle hb] at h
    obtain ⟨hr, hi⟩ | ⟨_, h⟩ := State.afterBoot_refused h
    · exact .inl ⟨hr, hi⟩
    · split at h
      · cases h
      · rename_i hv; cases h; exact .inr (.inr (.inl ⟨rfl, rfl, by simpa using hv⟩))
  split at h
  · rw [State.begin, State.onAccept_idle hb] at h
    obtain ⟨hr, hi⟩ | ⟨_, h⟩ := State.afterBoot_refused h
    · exact .inl ⟨hr, hi⟩
    · cases h
  · rename_i h1 h2 h3 h4 h5 h6 h7
    cases h; exact .inr (.inr (.inr ⟨rfl, h1, h2, h3, h4, h5, h6, h7⟩))

/-! ### The step in each position -/

theorem step_idle {s : State} (hb : s.busy = false) : step s = s.acceptStep := by simp [step, hb]

theorem step_busy {s : State} (hb : s.busy = true) : step s = s.busyStep := by simp [step, hb]

/-- A command word that stands on the port of an idle machine begins (R40). -/
theorem step_begin {s : State} {w : CmdWord} {later : List CmdWord} (hb : s.busy = false)
    (hp : s.pending = w :: later) :
    step s = State.begin (commandOf (cmdOpcode w) (cmdOperand w)) { s with pending := later } := by
  rw [step_idle hb]
  simp only [State.acceptStep, hp]
  rfl

theorem step_configure {s : State} (hb : s.busy = true) (hp : s.phase = .configure) :
    step s = .next { s.busConfigure with phase := .pinMode } := by
  rw [step_busy hb]; simp only [State.busyStep, hp]

theorem step_pinMode {s : State} (hb : s.busy = true) (hp : s.phase = .pinMode) :
    step s = .next { s.pinOutput with phase := .pinHigh } := by
  rw [step_busy hb]; simp only [State.busyStep, hp]

theorem step_pinHigh {s : State} (hb : s.busy = true) (hp : s.phase = .pinHigh) :
    step s = .next { s.pinHigh with phase := .frame .status } := by
  rw [step_busy hb]; simp only [State.busyStep, hp]

theorem step_frame {s : State} {f : FrameKind} (hb : s.busy = true) (hp : s.phase = .frame f) :
    step s = .next { s.csAssert with phase := .send f 0 } := by
  rw [step_busy hb]; simp only [State.busyStep, hp]

theorem step_send {s : State} {f : FrameKind} {k : Nat} (hb : s.busy = true) (hp : s.phase = .send f k) :
    step s = .next (s.sendStep f k) := by
  rw [step_busy hb]; simp only [State.busyStep, hp]

theorem step_close {s : State} {c : Closing} (hb : s.busy = true) (hp : s.phase = .close c) :
    step s = .next (s.closeStep c) := by
  rw [step_busy hb]; simp only [State.busyStep, hp]

theorem step_table {s : State} {w : Walk} (hb : s.busy = true) (hp : s.phase = .table w) :
    step s = s.tableStep w := by
  rw [step_busy hb]; simp only [State.busyStep, hp]

theorem step_walk {s : State} {w : Walk} (hb : s.busy = true) (hp : s.phase = .walk w) :
    step s = s.walkStep w := by
  rw [step_busy hb]; simp only [State.busyStep, hp]

theorem step_select {s : State} {w : Walk} (hb : s.busy = true) (hp : s.phase = .select w) :
    step s = .next { s.csAssert with phase := .data w } := by
  rw [step_busy hb]; simp only [State.busyStep, hp]

theorem step_data {s : State} {w : Walk} (hb : s.busy = true) (hp : s.phase = .data w) :
    step s = s.dataStep w := by
  rw [step_busy hb]; simp only [State.busyStep, hp]

theorem step_deselect {s : State} {w : Walk} (hb : s.busy = true) (hp : s.phase = .deselect w) :
    step s = .next { s.csDeassert with phase := .walk w } := by
  rw [step_busy hb]; simp only [State.busyStep, hp]

/-- A transfer of a frame (R134): one reply taken, one event, the next position. -/
theorem State.sendStep_eq {s : State} {f : FrameKind} {k : Nat} {b : Byte}
    (h : (s.frameBytes f)[k]? = some b) :
    s.sendStep f k = { s with
      replies := s.replies.drop 1, drawn := s.drawn + 1,
      trace := s.trace ++ [.xfer b (s.replyAt 0)],
      phase := if k + 1 < (s.frameBytes f).length then .send f (k + 1)
        else .close (f.closing (s.replyAt 0)) } := by
  simp only [State.sendStep, h, State.xfer_snd, State.xfer_fst]

/-- A transfer of a data byte (R152): fetched at `TP`, counted down in `CNT`, the reply dropped. -/
theorem State.dataStep_eq {s : State} {w : Walk} {b : Byte} (h : s.rom.tblRead s.tp.toNat = some b) :
    s.dataStep w = .next { s with
      tp := s.tp + 1#16, cnt := s.cnt - 1#8,
      replies := s.replies.drop 1, drawn := s.drawn + 1,
      trace := s.trace ++ [.xfer b (s.replyAt 0)],
      phase := if s.cnt - 1#8 = 0#8 then .deselect w else .data w } := by
  have hr := State.replyAt_congr (s := s) (t := { s with tp := s.tp + 1#16 }) rfl rfl 0
  simp only [State.dataStep, h, State.xfer_snd, hr]

/-- The table of a walk begins (R151). -/
theorem State.tableStep_eq {s : State} {w : Walk} {base : TableAddr} {entries : List (List Byte)}
    (hw : s.walkBase w = some base) (ht : s.rom.table base = some entries) :
    s.tableStep w = .next { s with tp := base, phase := .walk w } := by
  simp only [State.tableStep, hw, ht]

theorem State.tableStep_cases {s t : State} {w : Walk} (h : s.tableStep w = .next t) :
    ∃ base entries, s.walkBase w = some base ∧ s.rom.table base = some entries ∧
      t = { s with tp := base, phase := .walk w } := by
  unfold State.tableStep at h
  split at h
  · cases h
  · rename_i base hw
    split at h
    · cases h
    · rename_i entries ht; cases h; exact ⟨base, entries, hw, ht, rfl⟩

/-- What the walker's fetch can answer (R93, R151). -/
theorem State.walkStep_cases {s t : State} {w : Walk} (h : s.walkStep w = .next t) :
    ∃ n, s.rom.tblRead s.tp.toNat = some n ∧
      (n = 0#8 ∧ t = s.fetchEnd.afterTable ∨ n ≠ 0#8 ∧ t = s.fetchLength n w) := by
  unfold State.walkStep at h
  split at h
  · cases h
  · rename_i n hn
    split at h
    · rename_i h0; cases h; exact ⟨n, hn, .inl ⟨h0, rfl⟩⟩
    · rename_i h0; cases h; exact ⟨n, hn, .inr ⟨h0, rfl⟩⟩

/-- `END` in a walk (R153). -/
theorem State.afterTable_walk {s : State} {w : Walk} (hp : s.phase = .walk w) :
    s.afterTable = s.afterEnd w := by simp only [State.afterTable, hp]

theorem State.dataStep_cases {s t : State} {w : Walk} (h : s.dataStep w = .next t) :
    ∃ b, s.rom.tblRead s.tp.toNat = some b ∧ t = { s with
      tp := s.tp + 1#16, cnt := s.cnt - 1#8,
      replies := s.replies.drop 1, drawn := s.drawn + 1,
      trace := s.trace ++ [.xfer b (s.replyAt 0)],
      phase := if s.cnt - 1#8 = 0#8 then .deselect w else .data w } := by
  cases hb : s.rom.tblRead s.tp.toNat with
  | none => simp only [State.dataStep, hb] at h; cases h
  | some b => rw [State.dataStep_eq hb] at h; cases h; exact ⟨b, rfl, rfl⟩

/-- A step that answers a next state: nothing to run, a command begins, or the one in progress takes the step
of its position. -/
theorem step_next_cases {s t : State} (h : step s = .next t) :
    (s.busy = false ∧ s.pending = [] ∧ t = s) ∨
    (s.busy = false ∧ ∃ w later, s.pending = w :: later ∧
      State.begin (commandOf (cmdOpcode w) (cmdOperand w)) { s with pending := later } = .next t) ∨
    (s.busy = true ∧
      (s.phase = .idle ∧ t = s ∨
       s.phase = .configure ∧ t = { s.busConfigure with phase := .pinMode } ∨
       s.phase = .pinMode ∧ t = { s.pinOutput with phase := .pinHigh } ∨
       s.phase = .pinHigh ∧ t = { s.pinHigh with phase := .frame .status } ∨
       (∃ f, s.phase = .frame f ∧ t = { s.csAssert with phase := .send f 0 }) ∨
       (∃ f k, s.phase = .send f k ∧ t = s.sendStep f k) ∨
       (∃ c, s.phase = .close c ∧ t = s.closeStep c) ∨
       (∃ w, s.phase = .table w ∧ s.tableStep w = .next t) ∨
       (∃ w, s.phase = .walk w ∧ s.walkStep w = .next t) ∨
       (∃ w, s.phase = .select w ∧ t = { s.csAssert with phase := .data w }) ∨
       (∃ w, s.phase = .data w ∧ s.dataStep w = .next t) ∨
       (∃ w, s.phase = .deselect w ∧ t = { s.csDeassert with phase := .walk w }))) := by
  rcases Bool.eq_false_or_eq_true s.busy with hb | hb
  case inr =>
    rw [step_idle hb] at h
    unfold State.acceptStep at h
    split at h
    · rename_i hp; cases h; exact .inl ⟨hb, hp, rfl⟩
    · rename_i w later hp; exact .inr (.inl ⟨hb, w, later, hp, h⟩)
  case inl =>
    rw [step_busy hb] at h
    refine .inr (.inr ⟨hb, ?_⟩)
    unfold State.busyStep at h
    cases hp : s.phase <;> rw [hp] at h <;>
      first
        | (cases h; simp)
        | simpa using h

/-! ### Runs of a frame -/

/-- The transfers of a frame, from its `k`-th byte on. -/
theorem run_send (m : Nat) {s : State} {f : FrameKind} {k : Nat} (hb : s.busy = true)
    (hp : s.phase = .send f k) (hk : (s.frameBytes f).length = k + (m + 1)) :
    Sys2Proof.core.run (m + 1) s = .next { s with
      replies := s.replies.drop (m + 1), drawn := s.drawn + (m + 1),
      trace := s.trace ++ List.zipWith Event.xfer ((s.frameBytes f).drop k) (s.nextReplies (m + 1)),
      phase := .close (f.closing (s.replyAt m)) } := by
  induction m generalizing s k with
  | zero =>
    have hget : (s.frameBytes f)[k]? = some ((s.frameBytes f)[k]'(by omega)) :=
      List.getElem?_eq_getElem (by omega)
    rw [core_run_succ _ (step_send hb hp), State.sendStep_eq hget, if_neg (by omega)]
    rw [List.drop_eq_getElem_cons (i := k) (by omega), List.drop_eq_nil_of_le (i := k + 1) (by omega)]
    rfl
  | succ m ih =>
    have hget : (s.frameBytes f)[k]? = some ((s.frameBytes f)[k]'(by omega)) :=
      List.getElem?_eq_getElem (by omega)
    have hstep := step_send hb hp
    rw [State.sendStep_eq hget, if_pos (by omega)] at hstep
    rw [core_run_succ _ hstep]
    have hf : ∀ t : State, t.params = s.params → t.arg = s.arg → t.pkt = s.pkt →
        t.frameBytes f = s.frameBytes f := by
      intro t h1 h2 h3; cases f <;> simp only [State.frameBytes, h1, h2, h3]
    let u : State := { s with
      replies := s.replies.drop 1, drawn := s.drawn + 1,
      trace := s.trace ++ [.xfer ((s.frameBytes f)[k]'(by omega)) (s.replyAt 0)],
      phase := .send f (k + 1) }
    have hu : u.frameBytes f = s.frameBytes f := hf u rfl rfl rfl
    have hrun := ih (s := u) (k := k + 1) hb rfl (by rw [hu]; omega)
    refine hrun.trans ?_
    rw [hu, State.replyAt_drop (s := s) (t := u) 1 rfl rfl, List.drop_eq_getElem_cons (i := k) (by omega),
      State.nextReplies_succ (s := s) (t := u) rfl rfl (m + 1)]
    simp only [u, List.drop_drop, List.zipWith_cons_cons, List.append_assoc, List.singleton_append,
      Nat.add_assoc, Nat.add_comm 1]

/-- A frame step by step (R134, R137): after chip-select and the transfers, only the raising of chip-select is
left. -/
theorem run_frame {s : State} {f : FrameKind} {m : Nat} (hb : s.busy = true) (hp : s.phase = .frame f)
    (hm : (s.frameBytes f).length = m + 1) :
    Sys2Proof.core.run (m + 2) s = .next { s with
      csN := false, replies := s.replies.drop (m + 1), drawn := s.drawn + (m + 1),
      trace := s.trace ++
        .pin false :: List.zipWith Event.xfer (s.frameBytes f) (s.nextReplies (m + 1)),
      phase := .close (f.closing (s.replyAt m)) } := by
  rw [core_run_succ _ (step_frame hb hp)]
  have hf : State.frameBytes f { s.csAssert with phase := .send f 0 } = s.frameBytes f := by
    cases f <;> rfl
  rw [run_send m (s := { s.csAssert with phase := .send f 0 }) hb rfl (by rw [hf, hm, Nat.zero_add]), hf]
  have hr := State.nextReplies_congr (s := s) (t := { s.csAssert with phase := .send f 0 }) rfl rfl (m + 1)
  have h0 := State.replyAt_congr (s := s) (t := { s.csAssert with phase := .send f 0 }) rfl rfl m
  rw [hr, h0]
  simp [State.csAssert, State.emit]

end Sys2Proof.Machine
end

