-- ==== Sys2Proof/Laws/Trace.lean ====
section
/-! SUPPORT. What frames and walks add to a trace: their requests, their counts, and the chip-select
discipline (40_bus_primitives.md R134, R135). -/

namespace Sys2Proof.Machine

theorem xferCount_append (a b : List Event) : xferCount (a ++ b) = xferCount a + xferCount b := by
  simp [xferCount]

theorem requests_zipWith (outs ins : List Byte) (h : ins.length = outs.length) :
    (List.zipWith Event.xfer outs ins).map Event.request = outs.map Request.send := by
  induction outs generalizing ins with
  | nil => rfl
  | cons o outs ih =>
    cases ins with
    | nil => simp at h
    | cons i ins =>
      simp only [List.length_cons, Nat.add_right_cancel_iff] at h
      simp [Event.request, ih _ h]

/-- The requests of a frame do not depend on the replies (R134). -/
theorem frameEvents_request (outs ins : List Byte) (h : ins.length = outs.length) :
    (frameEvents outs ins).map Event.request = frameRequests outs := by
  simp [frameEvents, frameRequests, requests_zipWith outs ins h, Event.request]

/-- The requests of a walk do not depend on the replies (R157). -/
theorem tableEvents_request (entries : List (List Byte)) (ins : List Byte)
    (h : ins.length = tableTransfers entries) :
    (tableEvents entries ins).map Event.request = tableRequests entries := by
  induction entries generalizing ins with
  | nil => rfl
  | cons d ds ih =>
    rw [tableTransfers_cons] at h
    rw [tableEvents, List.map_append, frameEvents_request _ _ (by rw [List.length_take]; omega),
      ih _ (by rw [List.length_drop]; omega)]
    rfl

theorem newRequests_of {s t : State} {es : List Event} (h : t.trace = s.trace ++ es) :
    newRequests s t = es.map Event.request := by simp [newRequests, h]

theorem newRequests_trans {s t u : State} {a b : List Event} (h1 : t.trace = s.trace ++ a)
    (h2 : u.trace = t.trace ++ b) : newRequests s u = newRequests s t ++ newRequests t u := by
  simp [newRequests, h1, h2]

theorem newRequests_afterFrame (s : State) (outs : List Byte) :
    newRequests s (s.afterFrame outs) = frameRequests outs := by
  rw [newRequests_of (t := s.afterFrame outs) rfl, frameEvents_request _ _ (by simp)]

theorem newRequests_afterWalk (s : State) (base : TableAddr) (entries : List (List Byte)) :
    newRequests s (s.afterWalk base entries) = tableRequests entries := by
  rw [newRequests_of (t := s.afterWalk base entries) rfl, tableEvents_request _ _ (by simp)]

theorem xferCount_zipWith (outs ins : List Byte) (h : ins.length = outs.length) :
    xferCount (List.zipWith Event.xfer outs ins) = outs.length := by
  induction outs generalizing ins with
  | nil => rfl
  | cons o outs ih =>
    cases ins with
    | nil => simp at h
    | cons i ins =>
      simp only [List.length_cons, Nat.add_right_cancel_iff] at h
      have := ih _ h
      simp only [xferCount] at this
      simp [xferCount, List.countP_cons, Event.isXfer, this]

theorem pinLow_not_mem_zipWith (outs ins : List Byte) :
    (List.zipWith Event.xfer outs ins).count (.pin false) = 0 := by
  induction outs generalizing ins with
  | nil => rfl
  | cons o outs ih =>
    cases ins with
    | nil => rfl
    | cons i ins => simp [ih]

/-- How many exchanges, selections and events a frame is (R134). -/
theorem frameEvents_counts (outs ins : List Byte) (h : ins.length = outs.length) :
    xferCount (frameEvents outs ins) = outs.length ∧ (frameEvents outs ins).count (.pin false) = 1 ∧
      (frameEvents outs ins).length = outs.length + 2 := by
  have h1 := xferCount_zipWith outs ins h
  have h2 := pinLow_not_mem_zipWith outs ins
  simp only [xferCount] at h1
  refine ⟨?_, ?_, ?_⟩
  · simp [frameEvents, xferCount, Event.isXfer, h1]
  · simp [frameEvents, h2]
  · simp [frameEvents, h]

/-! ### The discipline -/

theorem busPos_append (p : BusPos) (a b : List Event) :
    busPos p (a ++ b) = (busPos p a).bind fun q => busPos q b := by
  induction a generalizing p with
  | nil => rfl
  | cons e es ih =>
    simp only [List.cons_append, busPos]
    cases p.next e <;> simp [ih]

theorem busPos_zipWith (outs ins : List Byte) :
    busPos .moving (List.zipWith Event.xfer outs ins) = some .moving := by
  induction outs generalizing ins with
  | nil => rfl
  | cons o outs ih =>
    cases ins with
    | nil => rfl
    | cons i ins => exact ih ins

/-- A frame of one byte or more keeps the discipline (R135). -/
theorem busPos_frameEvents (outs ins : List Byte) (h : outs ≠ []) (hl : ins.length = outs.length) :
    busPos .rest (frameEvents outs ins) = some .rest := by
  cases outs with
  | nil => exact absurd rfl h
  | cons o outs =>
    cases ins with
    | nil => cases hl
    | cons i ins =>
      show busPos .moving (List.zipWith Event.xfer outs ins ++ [.pin true]) = _
      rw [busPos_append, busPos_zipWith]
      rfl

/-- A walk of non-empty entries keeps the discipline (R135). -/
theorem busPos_tableEvents (entries : List (List Byte)) (ins : List Byte) (h : ∀ d ∈ entries, d ≠ [])
    (hl : ins.length = tableTransfers entries) :
    busPos .rest (tableEvents entries ins) = some .rest := by
  induction entries generalizing ins with
  | nil => rfl
  | cons d ds ih =>
    rw [tableTransfers_cons] at hl
    rw [tableEvents, busPos_append, busPos_frameEvents d _ (h d (by simp))
      (by rw [List.length_take]; omega)]
    exact ih _ (fun d hd => h d (List.mem_cons_of_mem _ hd)) (by rw [List.length_drop]; omega)

/-- One more event moves the bus from where it stands. -/
theorem busPos_snoc {tr : List Event} {q r : BusPos} {e : Event} (h : busPos .rest tr = some q)
    (he : q.next e = some r) : busPos .rest (tr ++ [e]) = some r := by
  rw [busPos_append, h]
  simp [busPos, he]

/-- A step that makes no event keeps the discipline, if its new position stands where the old one did. -/
theorem Disciplined.move {tr : List Event} {p p' : Phase} (h : Disciplined tr p)
    (hp : ∀ q, p.stands q = true → p'.stands q = true) : Disciplined tr p' :=
  h.imp fun q hq => ⟨hq.1, hp q hq.2⟩

/-- A step that makes one event keeps the discipline, if the event leads from where the old position stands
to where the new one does. -/
theorem Disciplined.snoc {tr : List Event} {p p' : Phase} {e : Event} (h : Disciplined tr p)
    (hp : ∀ q, p.stands q = true → ∃ r, q.next e = some r ∧ p'.stands r = true) :
    Disciplined (tr ++ [e]) p' := by
  obtain ⟨q, hq, hs⟩ := h
  obtain ⟨r, hr, hs'⟩ := hp q hs
  exact ⟨r, busPos_snoc hq hr, hs'⟩

/-! What the events of a frame find and leave, by position. -/

theorem Phase.send_next (f : FrameKind) (k : Nat) (o i : Byte) {q : BusPos}
    (h : (Phase.send f k).stands q = true) : q.next (.xfer o i) = some .moving := by
  cases q
  case selected => rfl
  case moving => rfl
  all_goals (exfalso; revert h; simp only [Phase.stands]; split <;> decide)

theorem Phase.close_next (c : Closing) {q : BusPos} (h : (Phase.close c).stands q = true) :
    q.next (.pin true) = some .rest := by
  cases q
  case moving => rfl
  all_goals cases h

theorem Phase.data_next (w : Walk) (o i : Byte) {q : BusPos} (h : (Phase.data w).stands q = true) :
    q.next (.xfer o i) = some .moving := by
  cases q
  case selected => rfl
  case moving => rfl
  all_goals cases h

end Sys2Proof.Machine
end

