-- ==== Sys2Proof/Tests/Slice0.lean ====
section
/-! SUPPORT. The package's own tests. Expected values are those of spec/95_test_vectors.md, named in each
docstring, or written out by hand from the encoding tables of spec/30_encoding.md; the witnesses show
that the hypotheses of the statements can be met. -/

namespace Sys2Proof.Tests

open Sys2Proof Sys2Proof.Machine

/-! ### Helpers -/

/-- The parameter values 95_test_vectors.md uses in its traces. -/
def sample : Params where
  dummyOut := 0x00#8
  cmdSftx := 0x3B#8
  cmdSidle := 0x36#8
  cmdStx := 0x35#8
  cmdTxfifoBurst := 0x7F#8
  busBitOrder := .msbFirst
  busMode := ⟨false, false⟩
  busClkdiv := 4
  csPin := 10

/-- The bytes of S-INIT as 95_test_vectors.md section 3 lists them, addresses 0x00 to 0x1A. -/
def sInitBytes : List Byte :=
  [0x01#8, 0x30#8, 0x02#8, 0x0A#8, 0x01#8, 0x04#8, 0x09#8, 0x01#8, 0x06#8, 0x09#8, 0x09#8, 0x7E#8,
    0xFF#8, 0xFF#8, 0xFF#8, 0xFF#8, 0xFF#8, 0xFF#8, 0xFF#8, 0xFF#8, 0x01#8, 0x3A#8, 0x01#8, 0x3B#8,
    0x01#8, 0x36#8, 0x00#8]

/-- The entries of S-INIT, I1 to I7. -/
def sInit : List (List Byte) :=
  [[0x30#8], [0x0A#8, 0x01#8], [0x09#8, 0x01#8, 0x06#8, 0x09#8],
    [0x7E#8, 0xFF#8, 0xFF#8, 0xFF#8, 0xFF#8, 0xFF#8, 0xFF#8, 0xFF#8, 0xFF#8], [0x3A#8], [0x3B#8], [0x36#8]]

/-- The sample ROM: S-INIT, PRE_TX at 0x1B, POST_LOAD at 0x20, 35 bytes. -/
def sampleRom : TableRom where
  cells := Memory.image 0
    (sInitBytes ++ [0x01#8, 0x3B#8, 0x01#8, 0x36#8, 0x00#8] ++ [0x01#8, 0x35#8, 0x00#8])
  size := 35
  initBase := 0x0000#16
  preTxBase := 0x001B#16
  postLoadBase := 0x0020#16

/-- A ROM with these bytes at address 0 and table id 0 there, of this size. -/
def romOf (bytes : List Byte) (size : Fin 65537) : TableRom where
  cells := Memory.image 0 bytes
  size := size
  initBase := 0#16
  preTxBase := 0#16
  postLoadBase := 0#16

/-- The hardware reset state with `RES` = 0x55 (say), the sample ROM and parameters, and a radio with these replies. -/
def fresh (replies : List Byte) : State :=
  { State.reset with res := 0x55#8, rom := sampleRom, params := sample, replies := replies }

/-- The same machine after boot. -/
def booted (replies : List Byte) : State :=
  { fresh replies with inited := true, csOe := true, csN := true }

/-- The same machine with a packet built. -/
def loaded (replies : List Byte) : State := (booted replies).buildPacket 0x40#8

/-- The same machine with a command in progress at this position. -/
def inProgress (p : Phase) (replies : List Byte) : State :=
  { booted replies with busy := true, phase := p }

/-- `n` equal replies. -/
def same (n : Nat) (b : Byte) : List Byte := List.replicate n b

/-- The next state, if there is one. -/
def next? : Host.Outcome State Fault Refusal → Option State
  | .next s => some s
  | .fault _ => none
  | .refused _ => none

/-- The refusal, if there is one. -/
def refusal? : Host.Outcome State Fault Refusal → Option Refusal
  | .next _ => none
  | .fault _ => none
  | .refused r => some r

/-- One component of the next state. -/
def got {α : Type} (f : State → α) (o : Host.Outcome State Fault Refusal) : Option α := (next? o).map f

/-- The bytes sent in a trace, frames and other events left out. -/
def outs : List Event → List Byte
  | [] => []
  | .xfer o _ :: es => o :: outs es
  | .cfg _ _ _ :: es => outs es
  | .pinMode :: es => outs es
  | .pin _ :: es => outs es

/-- `PIN(0) XFER(out, ·) PIN(1)` with every reply 0x0F. -/
def frame0F (bytes : List Byte) : List Event := frameEvents bytes (same bytes.length 0x0F#8)

/-! ### Well-formedness: an ill-formed term for each check -/

theorem test_wf_refuses_empty_txn : (Instr.txn []).wf = false := by decide

theorem test_wf_refuses_empty_wreg : (Instr.wreg []).wf = false := by decide

theorem test_wf_refuses_empty_burst : (Instr.burst 0x7E#8 []).wf = false := by decide

/-- One byte more than a length byte can say, in each of the three. -/
theorem test_wf_refuses_long_entries :
    (Instr.txn (same 256 0x00#8)).wf = false ∧
    (Instr.wreg (List.replicate 128 (0x00#8, 0x00#8))).wf = false ∧
    (Instr.burst 0x7E#8 (same 255 0x00#8)).wf = false := by decide +kernel

theorem test_wf_refuses_assigned_opcode :
    (Instr.unassigned 0x01#8 0x00#8).wf = false ∧ (Instr.unassigned 0x07#8 0x00#8).wf = false := by decide

/-! ### Decoding: each constructor from a word written out from 30_encoding.md (95_test_vectors.md 2.2) -/

theorem test_decode_reset : decodeCommand 0b0000000100000000#16 = .reset 0x00#8 := by decide

theorem test_decode_applyTable : decodeCommand 0b0000001000000010#16 = .applyTable 0x02#8 := by decide

theorem test_decode_readReg : decodeCommand 0b0000001100110001#16 = .readReg 0x31#8 := by decide

theorem test_decode_readStatus : decodeCommand 0b0000010000000000#16 = .readStatus 0x00#8 := by decide

theorem test_decode_buildPacket : decodeCommand 0b0000010101000000#16 = .buildPacket 0x40#8 := by decide

theorem test_decode_transmitPacket :
    decodeCommand 0b0000011000000000#16 = .transmitPacket 0x00#8 := by decide

theorem test_decode_sendMotorPower :
    decodeCommand 0b0000011110000001#16 = .sendMotorPower 0x81#8 := by decide

theorem test_decode_unassigned :
    decodeCommand 0x0000#16 = .unassigned 0x00#8 0x00#8 ∧
    decodeCommand 0x0800#16 = .unassigned 0x08#8 0x00#8 ∧
    decodeCommand 0xFF00#16 = .unassigned 0xFF#8 0x00#8 := by decide

/-- The 0x00 of `01 00` is data; the 0x00 alone is the terminator. -/
theorem test_decode_tblEnd :
    decode (.entry [0b00000000#8]) = .ok .tblEnd ∧
    decodeEntry [0x01#8, 0x00#8, 0x00#8] = .ok (.txn [0x00#8], [0x00#8]) := by decide

theorem test_decode_txn_longest :
    decode (.entry (0b11111111#8 :: same 255 0xA5#8)) = .ok (.txn (same 255 0xA5#8)) := by decide +kernel

theorem test_decode_txn_truncated :
    decode (.entry (0b00000101#8 :: same 4 0xA5#8)) = .error .missingData ∧
    decode (.entry []) = .error .missingLength ∧
    decode (.entry [0x00#8, 0x00#8]) = .error .trailingBytes := by decide

theorem test_decode_strobe :
    decode (.entry [0b00000001#8, 0b00111011#8]) = .ok (expand (.strobe 0x3B#8)) := by decide

theorem test_decode_wreg :
    decode (.entry [0x04#8, 0x09#8, 0x01#8, 0x06#8, 0x09#8]) =
      .ok (expand (.wreg [(0x09#8, 0x01#8), (0x06#8, 0x09#8)])) := by decide

theorem test_decode_burst :
    decode (.entry (0x09#8 :: 0x7E#8 :: same 8 0xFF#8)) = .ok (expand (.burst 0x7E#8 (same 8 0xFF#8))) := by
  decide

/-- The words of 95_test_vectors.md 2.2, the other way. -/
theorem test_encode_words :
    encode (.sendMotorPower 0x40#8) = .command 0x0740#16 ∧ encode (.reset 0xAB#8) = .command 0x01AB#16 ∧
    encode (.wreg [(0x0A#8, 0x01#8)]) = .entry [0x02#8, 0x0A#8, 0x01#8] := by decide

/-- The sample ROM's bytes are the encodings of its entries and its layout is the packed one. -/
theorem test_sample_rom :
    tableBytes sInit = sInitBytes ∧ packedRom sample sInitBytes = sampleRom ∧
      sampleRom.table 0x0000#16 = some sInit := by decide

/-! ### The operations (95_test_vectors.md 2.1, 2.3) -/

/-- Section 2.1, both tables. -/
theorem test_read_header_and_ready :
    [0x00#8, 0x31#8, 0x3F#8, 0x7F#8, 0x80#8, 0xF1#8, 0xFF#8].map readHeader =
      [0x80#8, 0xB1#8, 0xBF#8, 0xFF#8, 0x80#8, 0xF1#8, 0xFF#8] ∧
    [0x00#8, 0x0F#8, 0x7F#8, 0x80#8, 0x8F#8, 0xFF#8].map chipReady =
      [true, true, true, false, false, false] := by decide

/-- Section 2.3, the well-formed rows. -/
theorem test_table_well_formed :
    (romOf [0x00#8] 1).table 0#16 = some [] ∧ (romOf [0x01#8, 0x00#8, 0x00#8] 3).table 0#16 = some [[0x00#8]] ∧
    (romOf [0x01#8, 0x36#8, 0x00#8] 3).table 0#16 = some [[0x36#8]] := by decide

/-- Section 2.3, the rows that are not. -/
theorem test_table_ill_formed :
    (romOf [0x01#8] 1).table 0#16 = none ∧ (romOf [0x01#8, 0x36#8] 2).table 0#16 = none ∧
    (romOf [0x02#8, 0x36#8, 0x00#8] 3).table 0#16 = none ∧
    (romOf (0xFF#8 :: same 254 0x00#8) 255).table 0#16 = none := by decide +kernel

/-- The edge of the ROM: a table may end at its last byte, 0xFFFF, and not beyond. -/
theorem test_table_at_the_edge :
    TableRom.table { romOf [] 65536 with cells := [(65535, 0x00#8)] } 0xFFFF#16 = some [] ∧
    TableRom.table { romOf [] 65536 with cells := [(65534, 0x01#8), (65535, 0x00#8)] } 0xFFFE#16 = none := by
  decide

/-- Binding ROM bytes at address 0 keeps the canonical form and leaves the other bytes. -/
theorem test_memory_load :
    Memory.load [(0, 0x11#8), (1, 0x22#8), (5, 0x33#8)] [0xAA#8, 0xBB#8] =
      [(0, 0xAA#8), (1, 0xBB#8), (5, 0x33#8)] := by decide

/-- The items of S-INIT by kind: soft reset, two register-write entries, the power table, two flushes. -/
def sInitContent : InitContent where
  softReset := 0x30#8
  writes := [[(0x0A#8, 0x01#8)], [(0x09#8, 0x01#8), (0x06#8, 0x09#8)]]
  powerHeader := 0x7E#8
  powerValues := same 8 0xFF#8
  flushes := [0x3A#8, 0x3B#8]

/-- S-INIT has the shape of an INIT. -/
theorem sInit_shape : InitShape sample sInit :=
  ⟨by decide, sInitContent, sInitContent.middle, by decide, List.Sublist.refl _, by decide⟩

/-- An INIT may have further entries (R214, "at least"): a strobe 0x34 between S-INIT's register writes and
its burst, and a second burst before the idle strobe. -/
theorem test_init_shape_further :
    InitShape sample (sInit.take 3 ++ [0x34#8] :: (sInit.drop 3).dropLast ++
      [[0x7E#8, 0xC0#8], [0x36#8]]) :=
  ⟨by decide, sInitContent,
    (sInit.drop 1).take 2 ++ [0x34#8] :: (sInit.drop 3).dropLast ++ [[0x7E#8, 0xC0#8]], by decide,
    by decide, by decide⟩

/-- The shape refuses an INIT without register writes, without the power table's values, without flush
strobes, and one with a read entry. -/
theorem test_init_shape_refuses :
    InitContent.ok { sInitContent with writes := [] } = false ∧
    InitContent.ok { sInitContent with powerValues := [] } = false ∧
    InitContent.ok { sInitContent with flushes := [] } = false ∧
    InitContent.ok { sInitContent with writes := [[(0xB1#8, 0x00#8)]] } = false ∧
    writeEntry [0xFE#8, 0x00#8] = false ∧ writeEntry [] = false ∧
    writeEntry (same 256 0x00#8) = false := by decide +kernel

/-! ### Each instruction run whole -/

/-- P1, up to its first poll: the chip is not ready, so no INIT frame yet and `BUSY` = 1. -/
theorem test_reset_not_ready :
    got (fun t => (t.trace, t.busy, t.inited, t.phase))
      (exec (.reset 0x00#8) (fresh [0x0F#8, 0x8F#8])) =
      some ([.cfg .msbFirst ⟨false, false⟩ 4, .pinMode, .pin true, .pin false, .xfer 0x80#8 0x0F#8,
        .xfer 0x00#8 0x8F#8, .pin true], true, true, .frame .status) := by decide

/-- Section 2.7, first row: 3 + 4 + 33 events, `TP` past INIT, chip-select high. -/
theorem test_reset_ready :
    got (fun t => (t.trace.length, t.busy, t.tp, t.cnt, t.csN))
      (exec (.reset 0x00#8) (fresh (same 21 0x0F#8))) =
      some (40, false, 0x001B#16, 0x00#8, true) := by decide

/-- P2: reads and zero bytes inside a table are sent like any byte; the entry after END is not. -/
theorem test_applyTable_p2 :
    got (fun t => (t.trace, t.tp, t.cnt, t.res))
      (exec (.applyTable 0x00#8)
        { booted (same 5 0xC3#8) with
          res := 0x55#8
          rom := romOf [0x02#8, 0x0A#8, 0x00#8, 0x02#8, 0x8A#8, 0x00#8, 0x01#8, 0x36#8, 0x00#8, 0x01#8,
            0x35#8] 11 }) =
      some ([.pin false, .xfer 0x0A#8 0xC3#8, .xfer 0x00#8 0xC3#8, .pin true, .pin false,
        .xfer 0x8A#8 0xC3#8, .xfer 0x00#8 0xC3#8, .pin true, .pin false, .xfer 0x36#8 0xC3#8, .pin true],
        0x0009#16, 0x00#8, 0x55#8) := by decide

/-- The boundary of the table ids: 2 is POST_LOAD, 3 is refused. -/
theorem test_applyTable_ids :
    got State.trace (exec (.applyTable 0x02#8) (booted [0x0F#8])) = some (frame0F [0x35#8]) ∧
    refusal? (exec (.applyTable 0x03#8) (booted [])) = some .badTableId := by decide

/-- Section 2.6: `READ_REG 0x31` and, bit 7 already set, `READ_REG 0xF1`. -/
theorem test_readReg :
    got (fun t => (t.trace, t.res)) (exec (.readReg 0x31#8) (booted [0x0F#8, 0x03#8])) =
      some ([.pin false, .xfer 0xB1#8 0x0F#8, .xfer 0x00#8 0x03#8, .pin true], 0x03#8) ∧
    got (fun t => (outs t.trace, t.res)) (exec (.readReg 0xF1#8) (booted [0x0F#8, 0x14#8])) =
      some ([0xF1#8, 0x00#8], 0x14#8) := by decide

/-- Section 2.6 and W8: the second reply is the result; bit 7 set does not stop the command. -/
theorem test_readStatus :
    got (fun t => (t.trace, t.res, t.busy)) (exec (.readStatus 0x00#8) (booted [0xFF#8, 0x0F#8])) =
      some ([.pin false, .xfer 0x80#8 0xFF#8, .xfer 0x00#8 0x0F#8, .pin true], 0x0F#8, false) ∧
    got State.res (exec (.readStatus 0x00#8) (booted [0x00#8, 0x8F#8])) = some 0x8F#8 := by decide

/-- P6 and section 2.8: accepted before the first RESET, no event. -/
theorem test_buildPacket :
    got (fun t => (t.pkt.bytes, t.pktValid, t.trace)) (exec (.buildPacket 0x10#8) (fresh [])) =
      some ([0x01#8, 0x00#8, 0xA5#8, 0x10#8, 0x10#8, 0x00#8, 0x00#8, 0x05#8], true, []) := by decide

/-- W7 with the packet already built: 20 events, the packet used up. -/
theorem test_transmitPacket :
    got (fun t => (t.trace, t.pktValid, t.tp)) (exec (.transmitPacket 0x00#8) (loaded (same 12 0x0F#8))) =
      some (frame0F [0x3B#8] ++ frame0F [0x36#8] ++
        frame0F [0x7F#8, 0x01#8, 0x00#8, 0xA5#8, 0x40#8, 0x40#8, 0x00#8, 0x00#8, 0x05#8] ++
        frame0F [0x35#8], false, 0x0023#16) := by decide

/-- P4: no packet, and P6: no boot, refused; the boot check comes first. -/
theorem test_transmitPacket_refused :
    refusal? (exec (.transmitPacket 0x00#8) (booted [])) = some .noPacket ∧
    refusal? (exec (.transmitPacket 0x00#8) (fresh [])) = some .beforeReset := by decide

/-- W9 and P4: one past the maximum is sent as it is, whatever packet was there before. -/
theorem test_sendMotorPower :
    got (fun t => (outs t.trace, t.pktValid, t.trace.length))
      (exec (.sendMotorPower 0x81#8) (loaded (same 12 0x0F#8))) =
      some ([0x3B#8, 0x36#8, 0x7F#8, 0x01#8, 0x00#8, 0xA5#8, 0x81#8, 0x81#8, 0x00#8, 0x00#8, 0x05#8, 0x35#8],
        false, 20) := by decide

theorem test_unassigned : refusal? (exec (.unassigned 0x08#8 0x00#8) (booted [])) = some .badOpcode := by
  decide

/-- Section 2.5, first row: no event, one byte. -/
theorem test_tblEnd :
    got (fun t => (t.trace, t.tp, t.busy)) (exec .tblEnd (inProgress (.walk .apply) [])) =
      some ([], 0x0001#16, false) := by decide

/-- Section 2.5, the row of `02 0A 01`: one frame, the length byte not sent. -/
theorem test_txn :
    got (fun t => (t.trace, t.tp, t.cnt, t.csN))
      (exec (.txn [0x0A#8, 0x01#8]) (inProgress (.walk .apply) [0x0F#8, 0x0F#8])) =
      some (frame0F [0x0A#8, 0x01#8], 0x0003#16, 0x00#8, true) := by decide

theorem test_strobe :
    got (fun t => (t.trace, t.tp)) (exec (.strobe 0x3B#8) (inProgress (.walk .apply) [0x0F#8])) =
      some (frame0F [0x3B#8], 0x0002#16) := by decide

theorem test_wreg :
    got (fun t => (t.trace, t.tp))
      (exec (.wreg [(0x09#8, 0x01#8), (0x06#8, 0x09#8)]) (inProgress (.walk .apply) (same 4 0x0F#8))) =
      some (frame0F [0x09#8, 0x01#8, 0x06#8, 0x09#8], 0x0005#16) := by decide

theorem test_burst :
    got (fun t => (t.trace, t.tp))
      (exec (.burst 0x7E#8 (same 8 0xFF#8)) (inProgress (.walk .apply) (same 9 0x0F#8))) =
      some (frame0F (0x7E#8 :: same 8 0xFF#8), 0x000A#16) := by decide

/-! ### The step and the host's two questions -/

/-- A command word is accepted in a step of its own, without an event (R40, D5). -/
theorem test_step_accepts :
    got (fun t => (t.trace, t.busy, t.op, t.arg, t.pending))
      (step { booted [] with pending := [0x0331#16, 0x0740#16] }) =
      some ([], true, 0x03#8, 0x31#8, [0x0740#16]) := by decide

/-- The four steps of section 2.6's `READ_REG 0x31`, one event each; `CS_N` is 0 in between. -/
theorem test_steps_of_a_read :
    got (fun t => (t.trace, t.csN)) (step { inProgress (.frame .readReg) [] with arg := 0x31#8 }) =
      some ([.pin false], false) ∧
    got (fun t => (t.trace, t.csN))
      (step { inProgress (.send .readReg 0) [0x0F#8] with arg := 0x31#8, csN := false }) =
      some ([.xfer 0xB1#8 0x0F#8], false) ∧
    got (fun t => (t.trace, t.phase)) (step { inProgress (.send .readReg 1) [0x03#8] with arg := 0x31#8 }) =
      some ([.xfer 0x00#8 0x03#8], .close (.keep 0x03#8)) ∧
    got (fun t => (t.trace, t.csN, t.res, t.busy)) (step (inProgress (.close (.keep 0x03#8)) [])) =
      some ([.pin true], true, 0x03#8, false) := by decide

/-- The boot steps of P1: `CFG`, `PINMODE`, `PIN(1)`; `INITED` with the last. -/
theorem test_steps_of_a_boot :
    got State.trace (step { fresh [] with busy := true, phase := .configure }) =
      some [.cfg .msbFirst ⟨false, false⟩ 4] ∧
    got (fun t => (t.trace, t.csOe, t.csN)) (step { fresh [] with busy := true, phase := .pinMode }) =
      some ([.pinMode], true, false) ∧
    got (fun t => (t.trace, t.csN, t.inited)) (step { fresh [] with busy := true, phase := .pinHigh }) =
      some ([.pin true], true, true) := by decide

/-- The poll goes on with another status frame, or with INIT. -/
theorem test_steps_of_a_poll :
    got (fun t => (t.trace, t.phase)) (step (inProgress (.close (.poll false)) [])) =
      some ([.pin true], .frame .status) ∧
    got State.phase (step (inProgress (.close (.poll true)) [])) = some (.table .init) ∧
    got State.phase (step (inProgress (.send .status 1) [0x80#8])) = some (.close (.poll false)) ∧
    got State.phase (step (inProgress (.send .status 1) [0x7F#8])) = some (.close (.poll true)) := by decide

/-- The walker on S-INIT: the fetch of I1's length at 0 and of the END at 0x1A make no event. -/
theorem test_walk_step :
    got (fun t => (t.trace, t.tp, t.cnt, t.phase)) (step (inProgress (.walk .apply) [])) =
      some ([], 0x0001#16, 0x01#8, .select .apply) ∧
    got (fun t => (t.trace, t.tp, t.busy)) (step { inProgress (.walk .apply) [] with tp := 0x001A#16 }) =
      some ([], 0x001B#16, false) := by decide

/-- The two data bytes of I2 (`02 0A 01` at 0x02): fetched at `TP`, counted down in `CNT`. -/
theorem test_data_step :
    got (fun t => (t.trace, t.tp, t.cnt, t.phase))
      (step { inProgress (.data .apply) [0xC3#8] with tp := 0x0003#16, cnt := 0x02#8 }) =
      some ([.xfer 0x0A#8 0xC3#8], 0x0004#16, 0x01#8, .data .apply) ∧
    got (fun t => (t.trace, t.tp, t.cnt, t.phase))
      (step { inProgress (.data .apply) [0xC3#8] with tp := 0x0004#16, cnt := 0x01#8 }) =
      some ([.xfer 0x01#8 0xC3#8], 0x0005#16, 0x00#8, .deselect .apply) := by decide

/-- The last byte of a FIFO load, and the walks of a transmit before and after it. -/
theorem test_steps_of_a_transmit :
    got (fun t => (t.trace, t.phase)) (step ((inProgress (.send .fifo 8) [0x0F#8]).buildPacket 0x01#8)) =
      some ([.xfer 0x05#8 0x0F#8], .close .drop) ∧
    got (fun t => (t.tp, t.phase)) (step (inProgress (.table .preTx) [])) =
      some (0x001B#16, .walk .preTx) ∧
    got State.phase (step { inProgress (.walk .preTx) [] with tp := 0x001F#16 }) = some (.frame .fifo) ∧
    got (fun t => (t.pktValid, t.busy))
      (step { (inProgress (.walk .postLoad) []).buildPacket 0x01#8 with tp := 0x0022#16 }) =
      some (false, false) := by decide

/-- Rows of the opcode table, numbered as it numbers them: command words, END, and a TXN of zeros. -/
theorem test_decodeTableWord :
    decodeTableWord 16 0x0540 = some (.buildPacket 0x40#8) ∧ decodeTableWord 8 0x00 = some .tblEnd ∧
    decodeTableWord 8 0x02 = some (.txn [0x00#8, 0x00#8]) ∧
    decodeTableWord 24 0x3B3602 = some (.txn [0x36#8, 0x3B#8]) ∧
    decodeTableWord 8 0xFF = some (.txn (same 255 0x00#8)) := by decide +kernel

/-- The next step from reset begins the placed command, or refuses it as the rule says. -/
theorem test_withFetchWord_command :
    got State.pktValid (step (State.reset.withFetchWord 16 0x0540)) = some true ∧
    got (fun t => (t.op, t.phase)) (step (State.reset.withFetchWord 16 0x0100)) =
      some (0x01#8, .configure) ∧
    refusal? (step (State.reset.withFetchWord 16 0x0600)) = some .beforeReset ∧
    refusal? (step (State.reset.withFetchWord 16 0xFF00)) = some .badOpcode := by decide

/-- The next step from reset runs the placed END, or begins the placed TXN, the longest one here. -/
theorem test_withFetchWord_entry :
    got (fun t => (t.tp, t.busy)) (step (State.reset.withFetchWord 8 0x00)) = some (0x0001#16, false) ∧
    got (fun t => (t.tp, t.cnt, t.phase)) (step (State.reset.withFetchWord 8 0xFF)) =
      some (0x0001#16, 0xFF#8, .select .apply) := by decide +kernel

/-! ### Witnesses: states and operands that meet the hypotheses of the statements -/

/-- DecodeOfEncodeGivesTheInstruction, at the ends of every range WellFormed bounds. -/
theorem witness_wellFormed :
    WellFormed (.txn [0x00#8]) ∧ WellFormed (.txn (same 255 0x00#8)) ∧
    WellFormed (.wreg [(0x00#8, 0x00#8)]) ∧ WellFormed (.wreg (List.replicate 127 (0x00#8, 0x00#8))) ∧
    WellFormed (.burst 0x00#8 [0x00#8]) ∧ WellFormed (.burst 0x00#8 (same 254 0x00#8)) ∧
    WellFormed (.unassigned 0x00#8 0xFF#8) ∧ WellFormed (.unassigned 0x08#8 0x00#8) ∧
    WellFormed (.unassigned 0xFF#8 0xFF#8) ∧ WellFormed (.reset 0xFF#8) ∧ WellFormed .tblEnd := by
  decide +kernel

/-- AcceptedTableBytesReencode: END and the shortest entry (test_decode_txn_longest has the longest). -/
theorem witness_acceptedBytes :
    decodeEntry [0x00#8, 0x01#8] = .ok (.tblEnd, [0x01#8]) ∧
    decodeEntry [0x01#8, 0x35#8] = .ok (.txn [0x35#8], []) := by decide

/-- The statements that have a walk premise: TerminatorIsOneSilentZeroByte, EntrySendsItsDataInOneFrame,
PseudoInstructionsRunAsOneEntry; and a state for each clause of EndReturnsToTheCommandInProgress. -/
theorem witness_walkPositions :
    (inProgress (.walk .apply) []).busy = true ∧ (inProgress (.walk .apply) []).phase = .walk .apply ∧
    (inProgress (.walk .preTx) []).phase = .walk .preTx ∧
    (inProgress (.walk .postLoad) []).phase = .walk .postLoad ∧
    ∀ w, (inProgress (.frame .fifo) []).phase ≠ .walk w :=
  ⟨rfl, rfl, rfl, rfl, fun _ h => Phase.noConfusion h⟩

/-- EntrySendsItsDataInOneFrame and FrameIsOneSelectedRunOfTransfers, at both ends. -/
theorem witness_entryLengths :
    1 ≤ [0x00#8].length ∧ (same 255 0x00#8).length ≤ 255 ∧ 1 ≤ (same 255 0x00#8).length ∧
      same 255 0x00#8 ≠ [] :=
  ⟨by decide, by rw [same, List.length_replicate], by rw [same, List.length_replicate]; decide,
    List.cons_ne_nil _ _⟩

/-- FirstTerminatorEndsTheTable: two ROMs that differ only behind the terminator. -/
theorem witness_firstTerminator :
    (romOf [0x01#8, 0x36#8, 0x00#8, 0x01#8, 0x35#8, 0x00#8] 6).table 0#16 = some [[0x36#8]] ∧
    (∀ a < 0 + tableLength [[0x36#8]],
      (romOf [0x01#8, 0x36#8, 0x00#8, 0xFF#8] 4).tblRead a =
        (romOf [0x01#8, 0x36#8, 0x00#8, 0x01#8, 0x35#8, 0x00#8] 6).tblRead a) := by decide

/-- ReplayOfATableIsPure and WalkDoesExactlyTheWorkOfItsEntries. -/
theorem witness_walk :
    ((booted (same 19 0x0F#8)).applyTable 0#16).isSome = true ∧
    (booted [0xFF#8]).rom = (booted (same 19 0x0F#8)).rom ∧
    (booted (same 19 0x0F#8)).rom.table 0#16 = some sInit := by decide

/-- The reads, BUILD_PACKET, SEND_MOTOR_POWER and APPLY_TABLE: an idle machine after boot. -/
theorem witness_booted :
    (booted []).busy = false ∧ (booted []).inited = true ∧ (booted []).phase = .idle := by decide

/-- PostLoadIsTheTransmitStrobe. -/
theorem witness_postLoad :
    (booted []).rom.table (booted []).rom.postLoadBase = some [[(booted []).params.cmdStx]] := by
  decide

theorem sampleRom_holdsTransmitTables : sampleRom.holdsTransmitTables sample :=
  ⟨by decide, by decide⟩

/-- TransmitSendsFourFramesAndUsesThePacket and SendMotorPowerSendsThePacketOfItsPower. -/
theorem witness_transmit :
    (loaded []).busy = false ∧ (loaded []).inited = true ∧ (loaded []).pktValid = true ∧
      (loaded []).rom.holdsTransmitTables (loaded []).params :=
  ⟨rfl, rfl, rfl, sampleRom_holdsTransmitTables⟩

/-- ApplyTableWalksTheChosenTable: each of the three ids, and an empty table. -/
theorem witness_tables :
    (booted []).rom.table (booted []).rom.initBase = some sInit ∧
    (booted []).rom.table (booted []).rom.preTxBase = some [[0x3B#8], [0x36#8]] ∧
    (booted []).rom.table (booted []).rom.postLoadBase = some [[0x35#8]] ∧
    (romOf [0x00#8] 1).table 0#16 = some [] := by decide

/-- ResetOfAReadyChipSendsInit: a status byte of 0x7F, from hardware reset. -/
theorem witness_ready :
    (fresh [0xFF#8, 0x7F#8]).busy = false ∧ ((fresh [0xFF#8, 0x7F#8]).replyAt 1).getLsbD 7 = false ∧
    (fresh [0xFF#8, 0x7F#8]).rom.table (fresh [0xFF#8, 0x7F#8]).rom.initBase = some sInit := by
  decide

/-- ResetOfABusyChipKeepsPolling: a status byte of 0x80. -/
theorem witness_notReady :
    (fresh [0x00#8, 0x80#8]).busy = false ∧ ((fresh [0x00#8, 0x80#8]).replyAt 1).getLsbD 7 = true := by
  decide

/-- PollMakesOneStatusFrame, both clauses. -/
theorem witness_poll :
    (inProgress (.frame .status) []).busy = true ∧
    (inProgress (.frame .status) []).phase = .frame .status ∧
    ((inProgress (.frame .status) [0x00#8, 0x80#8]).replyAt 1).getLsbD 7 = true ∧
    ((inProgress (.frame .status) [0xFF#8, 0x7F#8]).replyAt 1).getLsbD 7 = false ∧
    (inProgress (.frame .status) []).rom.table (inProgress (.frame .status) []).rom.initBase =
      some sInit := by decide

/-- The replies of section 2.7, fourth row: three polls that are not ready and one that is. -/
def threePolls : List Byte := [0x0F#8, 0x80#8, 0x0F#8, 0xFF#8, 0x0F#8, 0xC0#8, 0x0F#8, 0x7F#8]

/-- ResetCompletesOnceTheChipIsReady, with n = 3, and with n = 0. -/
theorem witness_resetCompletes :
    { fresh threePolls with pending := [0x0100#16, 0x0740#16] }.pending =
      commandWord 0x01#8 0x00#8 :: [0x0740#16] ∧
    (∀ k < 3, ((fresh threePolls).replyAt (2 * k + 1)).getLsbD 7 = true) ∧
    ((fresh threePolls).replyAt (2 * 3 + 1)).getLsbD 7 = false ∧
    ((fresh [0xFF#8, 0x7F#8]).replyAt (2 * 0 + 1)).getLsbD 7 = false := by decide

/-- ResetHangsWhileTheChipIsNotReady, with n = 3. -/
theorem witness_resetHangs :
    (inProgress (.frame .status) threePolls).busy = true ∧
    (inProgress (.frame .status) threePolls).phase = .frame .status ∧
    (∀ k < 3, ((inProgress (.frame .status) threePolls).replyAt (2 * k + 1)).getLsbD 7 = true) := by decide

/-- ResetIsIdempotentOnTheBus: a first RESET and one after other work, both complete at their first status frame. -/
theorem witness_twoResets :
    (loaded []).rom = (fresh []).rom ∧ (loaded []).params = (fresh []).params ∧
    got State.busy (exec (.reset 0x00#8) (fresh (same 21 0x0F#8))) = some false ∧
    got State.busy (exec (.reset 0xAB#8) (loaded (same 21 0x7F#8))) = some false := by decide

/-- BusCommandsBeforeResetAreRefused. -/
theorem witness_fresh : (fresh []).busy = false ∧ (fresh []).inited = false := by decide

/-- A booted machine with a packet, whose three tables are not well formed. -/
def illFormed : State :=
  { loaded [0x0F#8, 0x0F#8] with rom := romOf [0x01#8] 1 }

/-- RefusalsAfterBoot, idle: no packet, id 3, each table ill formed, with a packet and without. -/
theorem witness_refusals :
    illFormed.busy = false ∧ illFormed.inited = true ∧ illFormed.pktValid = true ∧
    (booted []).busy = false ∧ (booted []).inited = true ∧ (booted []).pktValid = false ∧
    3 ≤ (0x03#8 : Byte).toNat ∧
    illFormed.rom.table illFormed.rom.initBase = none ∧
    illFormed.rom.table illFormed.rom.preTxBase = none ∧
    illFormed.rom.table illFormed.rom.postLoadBase = none ∧
    (illFormed.replyAt 1).getLsbD 7 = false := by decide

/-- RefusalsAfterBoot, only POST_LOAD ill formed: its base is past the end of the ROM. -/
theorem witness_refusals_postLoad :
    TableRom.table { romOf [0x00#8] 1 with postLoadBase := 1#16 } 0#16 = some [] ∧
    TableRom.table { romOf [0x00#8] 1 with postLoadBase := 1#16 } 1#16 = none := by decide

/-- RefusalsAfterBoot, at a later poll. -/
theorem witness_refusals_poll :
    { illFormed with busy := true, phase := .frame .status }.busy = true ∧
    { illFormed with busy := true, phase := .frame .status }.phase = .frame .status ∧
    { illFormed with busy := true, phase := .frame .status }.inited = true ∧
    (State.replyAt { illFormed with busy := true, phase := .frame .status } 1).getLsbD 7 = false := by
  decide

/-- ResetWithAnIllFormedInitIsRefused, before the first boot. -/
theorem witness_illFormedInit :
    { fresh [0xFF#8, 0x7F#8] with rom := romOf [0x01#8] 1 }.busy = false ∧
    { fresh [0xFF#8, 0x7F#8] with rom := romOf [0x01#8] 1 }.inited = false ∧
    (State.replyAt { fresh [0xFF#8, 0x7F#8] with rom := romOf [0x01#8] 1 } 1).getLsbD 7 = false ∧
    (romOf [0x01#8] 1).table (romOf [0x01#8] 1).initBase = none := by decide

/-- FetchesOutsideATableAreRefused: each clause. -/
theorem witness_fetches :
    { illFormed with busy := true, phase := .table .init }.busy = true ∧
    State.walkBase .init { illFormed with busy := true, phase := .table .init } = some 0x0000#16 ∧
    illFormed.rom.table 0x0000#16 = none ∧
    { illFormed with busy := true, phase := .walk .init, tp := 0x0001#16 }.phase = .walk .init ∧
    { illFormed with busy := true, phase := .data .init, tp := 0x0001#16 }.phase = .data .init ∧
    illFormed.rom.tblRead (0x0001#16).toNat = none := by decide

/-- UnassignedOpcodesAreRefused: 0x00, 0x08 and 0xFF. -/
theorem witness_unassigned :
    (0x00#8 : Byte).toNat = 0 ∧ 8 ≤ (0x08#8 : Byte).toNat ∧ 8 ≤ (0xFF#8 : Byte).toNat := by decide

/-- StepRunsTheDecodedInstruction: a command that completes, one that is refused, a TXN, an END, and nothing
to run. -/
theorem witness_step :
    { booted [] with pending := [0x0740#16] }.pending = [0x0740#16] ∧
    (next? (exec (.sendMotorPower 0x40#8) (booted (same 12 0x0F#8)))).isSome = true ∧
    refusal? (exec (.transmitPacket 0x00#8) (booted [])) = some .noPacket ∧
    (inProgress (.walk .apply) []).busy = true ∧
    decodeEntry ((inProgress (.walk .apply) []).rom.bytesFrom tableWindow 0) =
      .ok (.txn [0x30#8], sampleRom.bytesFrom 255 2) ∧
    decodeEntry ((inProgress (.walk .apply) []).rom.bytesFrom tableWindow 0x22) = .ok (.tblEnd, []) ∧
    (booted []).pending = [] := by decide

/-- NothingIsAcceptedWhileBusy: a step of a busy machine that answers a next state. -/
theorem witness_busy :
    (inProgress (.frame .status) []).busy = true ∧
    (next? (step (inProgress (.frame .status) []))).isSome = true := by decide

theorem sampleRom_layoutOk : sampleRom.layoutOk sample :=
  ⟨sampleRom_holdsTransmitTables, sInit, by decide, sInit_shape, by decide, by decide, by decide⟩

/-- AssignedCommandsRunAfterBoot: the first and last opcode, table id 2, and a packet for opcode 6. -/
theorem witness_assigned :
    (booted []).rom.layoutOk (booted []).params ∧
    1 ≤ (cmdOpcode 0x0100#16).toNat ∧ (cmdOpcode 0x07FF#16).toNat ≤ 7 ∧
    (cmdOpcode 0x0202#16).toNat = 2 ∧ (cmdOperand 0x0202#16).toNat ≤ 2 ∧
    (cmdOpcode 0x0600#16).toNat = 6 ∧ (loaded []).pktValid = true :=
  ⟨sampleRom_layoutOk, by decide, by decide, by decide, by decide, by decide, rfl⟩

/-- An idle machine after boot meets the invariant, whatever its radio and its command port hold. -/
theorem booted_inv (replies : List Byte) (pending : List CmdWord) :
    State.Inv { booted replies with pending := pending } where
  busyPhase := ⟨(fun h => nomatch h), fun h => absurd rfl h⟩
  command := rfl
  placed := trivial
  layout := sampleRom_layoutOk
  romWf := Memory.image_wf _ _
  chipSelect := fun _ => ⟨rfl, rfl⟩
  pinOutput := fun _ => rfl
  boot := fun h => nomatch h
  packet := fun h => nomatch h
  sending := fun _ h => nomatch h
  discipline := ⟨.rest, rfl, rfl⟩
  counted := Nat.le_refl _

/-- And one before its first RESET. -/
theorem fresh_inv (replies : List Byte) (pending : List CmdWord) :
    State.Inv { fresh replies with pending := pending } where
  busyPhase := ⟨(fun h => nomatch h), fun h => absurd rfl h⟩
  command := rfl
  placed := trivial
  layout := sampleRom_layoutOk
  romWf := Memory.image_wf _ _
  chipSelect := fun h => nomatch h
  pinOutput := fun h => nomatch h
  boot := fun _ => ⟨rfl, rfl⟩
  packet := fun h => nomatch h
  sending := fun _ h => nomatch h
  discipline := ⟨.rest, rfl, rfl⟩
  counted := Nat.le_refl _

/-- A RESET about to drive the pin high. -/
def pinDue : State :=
  { fresh [] with
    busy := true, op := 0x01#8, phase := .pinHigh, csOe := true,
    trace := [.cfg .msbFirst ⟨false, false⟩ 4, .pinMode] }

theorem pinDue_inv : pinDue.Inv where
  busyPhase := by decide
  command := rfl
  placed := trivial
  layout := sampleRom_layoutOk
  romWf := Memory.image_wf _ _
  chipSelect := fun h => nomatch h
  pinOutput := fun _ => rfl
  boot := fun _ => ⟨rfl, rfl⟩
  packet := fun h => nomatch h
  sending := fun h => nomatch h
  discipline := ⟨.output, rfl, rfl⟩
  counted := Nat.le_refl _

/-- A READ_REG about to raise chip-select. -/
def readDue : State :=
  { inProgress (.close (.keep 0x1F#8)) [] with
    op := 0x03#8, arg := 0x31#8, csN := false, drawn := 2,
    trace := [.pin false, .xfer 0xB1#8 0x0F#8, .xfer 0x00#8 0x1F#8] }

theorem readDue_inv : readDue.Inv where
  busyPhase := by decide
  command := rfl
  placed := trivial
  layout := sampleRom_layoutOk
  romWf := Memory.image_wf _ _
  chipSelect := fun _ => ⟨rfl, rfl⟩
  pinOutput := fun _ => rfl
  boot := fun h => nomatch h
  packet := fun h => nomatch h
  sending := fun h => nomatch h
  discipline := ⟨.moving, rfl, rfl⟩
  counted := Nat.le_refl _

/-- What a ROM spells, from a check that can be run. -/
theorem spells_of {r : TableRom} {a : Nat} {bytes : List Byte}
    (h : ∀ k < bytes.length, r.tblRead (a + k) = bytes[k]?) : r.spells a bytes := fun k b hk => by
  rw [h k (List.getElem?_eq_some_iff.1 hk).1, hk]

/-- An APPLY_TABLE inside I7 of S-INIT: chip-select low, `TP` at the strobe byte, the terminator after it. -/
def dataDue : State :=
  { inProgress (.data .apply) [] with
    op := 0x02#8, tp := 0x0019#16, cnt := 0x01#8, csN := false, trace := [.pin false] }

theorem dataDue_inv : dataDue.Inv where
  busyPhase := by decide
  command := rfl
  placed := ⟨[0x36#8], [], rfl, List.cons_ne_nil _ _, (fun _ h => nomatch h), spells_of (by decide)⟩
  layout := sampleRom_layoutOk
  romWf := Memory.image_wf _ _
  chipSelect := fun _ => ⟨rfl, rfl⟩
  pinOutput := fun _ => rfl
  boot := fun h => nomatch h
  packet := fun h => nomatch h
  sending := fun h => nomatch h
  discipline := ⟨.selected, rfl, rfl⟩
  counted := Nat.le_refl _

/-- EveryStepKeepsTheInvariant, RomAndParametersNeverChange, TraceOnlyGrows and EachStepMakesAtMostOneEvent:
steps that answer a next state, from states that meet the invariant; TransmitTablesHaveTheirBytes and
HardwareResetLeavesTheRom: such states. -/
theorem witness_inv :
    State.Inv { booted [] with pending := [0x0100#16] } ∧
    (next? (step { booted [] with pending := [0x0100#16] })).isSome = true ∧
    dataDue.Inv ∧ (next? (step dataDue)).isSome = true :=
  ⟨booted_inv _ _, by decide, dataDue_inv, by decide⟩

/-- InitedAndPinOutputAreSetOnceByReset, OnlyReadsWriteTheResult: steps that set `INITED` and `RES`. -/
theorem witness_changes :
    pinDue.Inv ∧ got State.inited (step pinDue) = some true ∧ pinDue.inited = false ∧
    readDue.Inv ∧ got State.res (step readDue) = some 0x1F#8 ∧ readDue.res ≠ 0x1F#8 :=
  ⟨pinDue_inv, by decide, rfl, readDue_inv, by decide, by decide⟩

/-- OnlyBuildersWriteThePacket: steps that write the packet, make one valid, and use one up. -/
theorem witness_packetChanges :
    got State.pkt (step { booted [] with pending := [0x0540#16] }) ≠ some (booted []).pkt ∧
    got State.pktValid (step { booted [] with pending := [0x0740#16] }) = some true ∧
    got State.pktValid
      (step { (inProgress (.walk .postLoad) []).buildPacket 0x01#8 with tp := 0x0022#16 }) =
      some false := by decide

/-- OnlyAcceptanceIsRefused: each of the four refusals, from states that meet the invariant. -/
theorem witness_refusedAcceptance :
    State.Inv { fresh [] with pending := [0x0331#16] } ∧
    refusal? (step { fresh [] with pending := [0x0331#16] }) = some .beforeReset ∧
    (∀ w, State.Inv { booted [] with pending := [w] }) ∧
    refusal? (step { booted [] with pending := [0x0600#16] }) = some .noPacket ∧
    refusal? (step { booted [] with pending := [0x0800#16] }) = some .badOpcode ∧
    refusal? (step { booted [] with pending := [0x0203#16] }) = some .badTableId :=
  ⟨fresh_inv _ _, by decide, fun _ => booted_inv _ _, by decide, by decide, by decide⟩

/-- WalkingInstructionByInstructionAgrees: PRE_TX in a transmit. -/
theorem witness_walkInProgress :
    (inProgress (.walk .preTx) []).busy = true ∧
    { inProgress (.walk .preTx) [] with tp := 0x001B#16 }.rom.table 0x001B#16 =
      some [[0x3B#8], [0x36#8]] := by decide

/-- CommandsAreTheSequenceOfTheirSteps: RESET of a ready chip, APPLY_TABLE, a read and a transmit complete. -/
theorem witness_commandsComplete :
    { booted [] with pending := [0x0100#16] }.pending = [0x0100#16] ∧
    decodeCommand 0x0100#16 = .reset 0x00#8 ∧
    got State.busy (exec (.reset 0x00#8) (booted (same 21 0x0F#8))) = some false ∧
    got State.busy (exec (.applyTable 0x01#8) (booted [])) = some false ∧
    got State.busy (exec (.readReg 0x31#8) (booted [])) = some false ∧
    got State.busy (exec (.transmitPacket 0x00#8) (loaded [])) = some false := by decide

/-- RadioSteersOnlyTheReadyPoll: instructions that are not RESET and answer a next state. -/
theorem witness_otherRadio :
    (∀ x, Instr.readStatus 0x00#8 ≠ .reset x) ∧
    (next? (exec (.readStatus 0x00#8) (booted [0xFF#8, 0x0F#8]))).isSome = true ∧
    (next? (exec (.sendMotorPower 0xFF#8) (booted []))).isSome = true ∧
    (next? (exec (.txn [0x36#8]) (inProgress (.walk .apply) []))).isSome = true :=
  ⟨fun _ h => Instr.noConfusion h, by decide, by decide, by decide⟩

/-- PackedRomHoldsTheThreeTables and InitIsAStrobeWritesBurstAndStrobes. -/
theorem witness_packed : InitShape sample sInit ∧ tableLength sInit + 8 ≤ 65536 :=
  ⟨sInit_shape, by decide⟩

/-- InitMayHaveFurtherEntries: S-INIT with an entry right after its first, right before its last. -/
theorem witness_furtherEntries :
    sInit.take 1 ≠ [] ∧ sInit.drop 1 ≠ [] ∧ sInit.take 6 ≠ [] ∧ sInit.drop 6 ≠ [] ∧
    (0x7F#8 : Byte).getLsbD 7 = false ∧ (same 254 0xFF#8).length ≤ 254 ∧
    InitShape sample (sInit.take 1 ++ sInit.drop 1) ∧ InitShape sample (sInit.take 6 ++ sInit.drop 6) :=
  ⟨by decide, by decide, by decide, by decide, by decide, by rw [same, List.length_replicate],
    sInit_shape, sInit_shape⟩

end Sys2Proof.Tests
end

section
/-! The encoding statements: END as the terminator of a table (30_encoding.md R92), and the reply that a
read keeps (30_encoding.md R113). -/

namespace Sys2Proof.Machine

/-- END: its length byte is fetched, and the walk returns to its command (R153). -/
theorem exec_tblEnd (s : State) : exec .tblEnd s = .next s.fetchEnd.afterTable := rfl

/-- A zero length byte decodes as END; the bytes after it are left alone (R92, R93). -/
theorem decodeEntry_zero (rest : List Byte) : decodeEntry (0x00#8 :: rest) = .ok (.tblEnd, rest) := rfl

/-! What follows END moves no pointer, makes no event, and is no walk. -/

@[simp] theorem State.afterEnd_tp (w : Walk) (s : State) : (s.afterEnd w).tp = s.tp := by
  cases w <;> rfl

@[simp] theorem State.afterEnd_trace (w : Walk) (s : State) : (s.afterEnd w).trace = s.trace := by
  cases w <;> rfl

theorem State.afterEnd_phase_ne_walk (w w' : Walk) (s : State) : (s.afterEnd w).phase ≠ .walk w' := by
  cases w <;> exact Phase.noConfusion

/-- In a walk, END returns to the command the walk belongs to. -/
theorem exec_tblEnd_walk {s : State} {w : Walk} (hp : s.phase = .walk w) :
    exec .tblEnd s = .next (s.fetchEnd.afterEnd w) := by
  rw [exec_tblEnd, State.afterTable_walk (s := s.fetchEnd) hp]

/-- READ_REG, accepted after boot: one read frame, its second reply in `RES`, completion (R170). -/
theorem exec_readReg_idle {x : Byte} {s : State} (hb : s.busy = false) (hi : s.inited = true) :
    exec (.readReg x) s = .next
      { (s.accept Opcode.readReg x).afterFrame [readHeader x, s.params.dummyOut] with
        res := s.replyAt 1 }.complete := by
  rw [exec_readReg, State.onAccept_idle hb,
    State.afterBoot_inited (s := s.accept Opcode.readReg x) hi, State.readFrame_afterFrame]
  rfl

/-- READ_STATUS, accepted after boot: the same with the status header (R171). -/
theorem exec_readStatus_idle {x : Byte} {s : State} (hb : s.busy = false) (hi : s.inited = true) :
    exec (.readStatus x) s = .next
      { (s.accept Opcode.readStatus x).afterFrame [cmdStatus, s.params.dummyOut] with
        res := s.replyAt 1 }.complete := by
  rw [exec_readStatus, State.onAccept_idle hb,
    State.afterBoot_inited (s := s.accept Opcode.readStatus x) hi, State.readFrame_afterFrame]
  rfl

/-- Settles O5: the bytes by the decoder's zero case, the walk by what follows its END. -/
theorem terminatorIsOneSilentZeroByte : Obligations.TerminatorIsOneSilentZeroByte := by
  refine ⟨decodeEntry_zero, fun s w _ hp => ⟨s.fetchEnd.afterEnd w, exec_tblEnd_walk hp, ?_, ?_, ?_⟩⟩
  · rw [State.afterEnd_tp, State.fetchEnd_tp]
  · rw [State.afterEnd_trace, State.fetchEnd_trace]
  · exact fun w' => State.afterEnd_phase_ne_walk w w' s.fetchEnd

/-- Settles O17: either read's next state has the second reply of its frame in `RES`. -/
theorem keptReplyReachesResUnchanged : Obligations.KeptReplyReachesResUnchanged := by
  intro operand s hb hi
  exact ⟨⟨_, exec_readReg_idle hb hi, rfl⟩, ⟨_, exec_readStatus_idle hb hi, rfl⟩⟩

end Sys2Proof.Machine
end

section
/-! The table statements: a table is what its bytes spell (41_table_executor.md R158), so only the bytes up
to its terminator matter (R156), and its walk asks the bus for what its entries say (R157). -/

namespace Sys2Proof

/-- What the table decoder accepts: the terminator, or a length byte in range with its data (R91 to R93). -/
theorem decodeEntry_cases {bytes rest : List Byte} {i : Instr} (h : decodeEntry bytes = .ok (i, rest)) :
    (i = .tblEnd ∧ bytes = 0x00#8 :: rest) ∨
    ∃ data, i = .txn data ∧ (1 ≤ data.length ∧ data.length ≤ 255) ∧ bytes = entryBytes data ++ rest := by
  cases bytes with
  | nil => cases h
  | cons n tail =>
    simp only [decodeEntry] at h
    split at h
    · rename_i hzero
      cases h
      exact .inl ⟨rfl, by rw [hzero]⟩
    · rename_i hzero
      split at h
      · cases h
      · rename_i hlong
        cases h
        have hpos : n.toNat ≠ 0 := fun h0 => hzero (BitVec.eq_of_toNat_eq h0)
        have hlt := n.isLt
        have hlen : (tail.take n.toNat).length = n.toNat := List.length_take_of_le (Nat.le_of_not_lt hlong)
        refine .inr ⟨tail.take n.toNat, rfl, by omega, ?_⟩
        rw [entryBytes, hlen, BitVec.ofNat_toNat, BitVec.setWidth_eq, List.cons_append,
          List.take_append_drop]

end Sys2Proof

namespace Sys2Proof.Machine

/-- The entry reader takes only entries a length byte can announce, from bytes that begin with theirs. -/
theorem tableEntries_cases {fuel : Nat} {bytes : List Byte} {entries : List (List Byte)}
    (h : tableEntries fuel bytes = some entries) :
    entriesOk entries ∧ ∃ rest, bytes = tableBytes entries ++ rest := by
  induction fuel generalizing bytes entries with
  | zero => cases h
  | succ fuel ih =>
    unfold tableEntries at h
    split at h
    case h_1 data rest hdecode =>
      obtain ⟨later, hlater, rfl⟩ := Option.map_eq_some_iff.1 h
      obtain ⟨hok, rest', rfl⟩ := ih hlater
      obtain ⟨hend, -⟩ | ⟨data', htxn, hlen, rfl⟩ := decodeEntry_cases hdecode
      · cases hend
      · cases htxn
        exact ⟨List.forall_mem_cons.2 ⟨hlen, hok⟩, rest', by rw [tableBytes_cons, List.append_assoc]⟩
    case h_2 rest hdecode =>
      cases h
      obtain ⟨-, rfl⟩ | ⟨data, htxn, -⟩ := decodeEntry_cases hdecode
      · exact ⟨List.forall_mem_nil _, rest, rfl⟩
      · cases htxn
    case h_3 => cases h

/-- A table has the entries whose bytes the ROM holds at its base (R158). -/
theorem TableRom.table_eq_some_iff {r : TableRom} {base : TableAddr} {entries : List (List Byte)} :
    r.table base = some entries ↔ entriesOk entries ∧ r.spells base.toNat (tableBytes entries) := by
  constructor
  · intro h
    obtain ⟨hok, rest, hbytes⟩ := tableEntries_cases h
    refine ⟨hok, fun k b hk => r.bytesFrom_getElem 65536 base.toNat k b ?_⟩
    rw [hbytes, List.getElem?_append_left (List.getElem?_eq_some_iff.1 hk).1, hk]
  · rintro ⟨hok, hspells⟩
    have hge := tableLength_ge entries
    have hlen := tableBytes_length entries
    have hfit : (tableBytes entries).length ≤ 65536 := by
      have := TableRom.spells_lt hspells (k := tableLength entries - 1) (by omega)
      omega
    obtain ⟨rest, hrest⟩ := r.bytesFrom_prefix (tableBytes entries) 65536 base.toNat hfit hspells
    rw [TableRom.table, hrest]
    exact tableEntries_tableBytes entries _ rest hok (by rw [List.length_append]; omega)

/-- What a ROM spells is spelled by every ROM that agrees with it on those bytes. -/
theorem TableRom.spells_congr {r r' : TableRom} {a : Nat} {bytes : List Byte} (h : r.spells a bytes)
    (hagree : ∀ x, a ≤ x → x < a + bytes.length → r'.tblRead x = r.tblRead x) : r'.spells a bytes := by
  intro k b hk
  have hlt := (List.getElem?_eq_some_iff.1 hk).1
  rw [hagree (a + k) (by omega) (by omega)]
  exact h k b hk

/-- Settles O10: the bytes up to the terminator spell the table in either ROM, and a walk is a function of
the entries spelled. -/
theorem firstTerminatorEndsTheTable : Obligations.FirstTerminatorEndsTheTable := by
  intro r r' base entries htable hagree
  obtain ⟨hok, hspells⟩ := TableRom.table_eq_some_iff.1 htable
  rw [← tableBytes_length] at hagree
  have htable' := TableRom.table_eq_some_iff.2 ⟨hok, TableRom.spells_congr hspells hagree⟩
  refine ⟨htable', fun s => ?_⟩
  rw [State.applyTable_eq (s := { s with rom := r' }) htable',
    State.applyTable_eq (s := { s with rom := r }) htable]
  rfl

/-- A walk that is made is that of the entries of its table (R151). -/
theorem State.applyTable_cases {s t : State} {base : TableAddr} (h : s.applyTable base = some t) :
    ∃ entries, s.rom.table base = some entries ∧ t = s.afterWalk base entries := by
  cases htable : s.rom.table base with
  | none => rw [State.applyTable_none htable] at h; cases h
  | some entries => rw [State.applyTable_eq htable] at h; cases h; exact ⟨entries, rfl, rfl⟩

/-- Settles O11: both walks ask for the requests of the table's entries, which are the ROM's. -/
theorem replayOfATableIsPure : Obligations.ReplayOfATableIsPure := by
  intro s s' t base hrom h
  obtain ⟨entries, htable, rfl⟩ := State.applyTable_cases h
  rw [← hrom] at htable
  exact ⟨s'.afterWalk base entries, State.applyTable_eq htable, by simp only [newRequests_afterWalk]⟩

end Sys2Proof.Machine
end

section
/-! The register access statements: a read's frame has exactly two transfers (42_register_access.md R174). -/

namespace Sys2Proof.Machine

/-- The events of a frame of two bytes: one selected run of two transfers (R134). -/
theorem State.afterFrame_pair_trace (o0 o1 : Byte) (s : State) :
    (s.afterFrame [o0, o1]).trace = s.trace ++
      [.pin false, .xfer o0 (s.replyAt 0), .xfer o1 (s.replyAt 1), .pin true] := rfl

/-- Settles O18: either read completes after the one frame of its header and the dummy byte. -/
theorem readsMakeOneFrameOfTwoTransfers : Obligations.ReadsMakeOneFrameOfTwoTransfers := by
  intro operand s i hb hi hread
  rcases hread with rfl | rfl
  · exact ⟨_, readHeader operand, s.params.dummyOut, exec_readReg_idle hb hi, State.complete_busy _,
      State.afterFrame_pair_trace _ _ (s.accept Opcode.readReg operand)⟩
  · exact ⟨_, cmdStatus, s.params.dummyOut, exec_readStatus_idle hb hi, State.complete_busy _,
      State.afterFrame_pair_trace _ _ (s.accept Opcode.readStatus operand)⟩

end Sys2Proof.Machine
end

section
/-! The packet framer statements: the frame of the FIFO load event by event (44_packet_framer.md R195), and
the walk of a table with one strobe in it (44_packet_framer.md R196). -/

namespace Sys2Proof.Machine

/-- The events of the FIFO-load frame: header and packet bytes, each with the reply of its exchange (R195). -/
theorem State.frameEvents_fifo (s : State) :
    frameEvents (s.params.cmdTxfifoBurst :: s.pkt.bytes) (s.nextReplies 9) =
      [.pin false, .xfer s.params.cmdTxfifoBurst (s.replyAt 0),
        .xfer s.pkt.fix0 (s.replyAt 1), .xfer s.pkt.fix1 (s.replyAt 2), .xfer s.pkt.fix2 (s.replyAt 3),
        .xfer s.pkt.motorA (s.replyAt 4), .xfer s.pkt.motorB (s.replyAt 5), .xfer s.pkt.fix5 (s.replyAt 6),
        .xfer s.pkt.fix6 (s.replyAt 7), .xfer s.pkt.fix7 (s.replyAt 8), .pin true] := rfl

/-- The walk of a table of one strobe makes the strobe's frame, its terminator nothing (R152, R153). -/
theorem State.afterWalk_strobe_trace (base : TableAddr) (c : Byte) (s : State) :
    (s.afterWalk base [[c]]).trace = s.trace ++ [.pin false, .xfer c (s.replyAt 0), .pin true] := rfl

/-- Settles O22: the record update of the FIFO load, its frame written out event by event. -/
theorem fifoLoadIsOneFrameOfNineTransfers : Obligations.FifoLoadIsOneFrameOfNineTransfers := by
  intro s
  rw [State.loadFifo_eq, State.frameEvents_fifo]

/-- Settles O23: the walk of a well-formed table is that of its entries, here one strobe. -/
theorem postLoadIsTheTransmitStrobe : Obligations.PostLoadIsTheTransmitStrobe := by
  intro s htable
  exact ⟨s.afterWalk s.rom.postLoadBase [[s.params.cmdStx]], State.applyTable_eq htable,
    State.afterWalk_strobe_trace _ _ s⟩

end Sys2Proof.Machine
end

section
/-! The encoding statements: command words by their opcode, table entries by their length byte
(30_encoding.md R91 to R99, R103), and the two bit operations of the block (00_scope.md R12). -/

namespace Sys2Proof

/-- The opcode map of R97 has seven rows; every other opcode is unassigned (R99). -/
theorem opcode_cases (o : Byte) :
    o = Opcode.reset ∨ o = Opcode.applyTable ∨ o = Opcode.readReg ∨ o = Opcode.readStatus ∨
      o = Opcode.buildPacket ∨ o = Opcode.transmitPacket ∨ o = Opcode.sendMotorPower ∨
      (o.toNat = 0 ∨ 8 ≤ o.toNat) := by
  bv_omega

theorem commandOf_unassigned {o : Byte} (x : Byte) (h : o.toNat = 0 ∨ 8 ≤ o.toNat) :
    commandOf o x = .unassigned o x := by
  have hne : ∀ n : Byte, 1 ≤ n.toNat → n.toNat ≤ 7 → o ≠ n := by rintro n h1 h7 rfl; omega
  simp [commandOf, hne]

theorem wellFormed_unassigned {o x : Byte} :
    WellFormed (.unassigned o x) ↔ o.toNat = 0 ∨ 8 ≤ o.toNat := by simp [WellFormed, Instr.wf]

theorem entryLengthOk_iff {n : Nat} : entryLengthOk n = true ↔ 1 ≤ n ∧ n ≤ 255 := by simp [entryLengthOk]

/-- Decoding the word of an opcode and an operand is the opcode map (R96, R97). -/
@[simp] theorem decodeCommand_commandWord (o x : Byte) :
    decodeCommand (commandWord o x) = commandOf o x := by
  simp [decodeCommand]

/-- The commands are written as their opcode and operand, and are well formed (R96, R97, R99). -/
theorem commandOf_wf_encode (o x : Byte) :
    WellFormed (commandOf o x) ∧ encode (commandOf o x) = .command (commandWord o x) := by
  obtain rfl | rfl | rfl | rfl | rfl | rfl | rfl | h := opcode_cases o
  case inr.inr.inr.inr.inr.inr.inr =>
    rw [commandOf_unassigned x h]
    exact ⟨wellFormed_unassigned.2 h, rfl⟩
  all_goals exact ⟨rfl, rfl⟩

/-- The bytes of one entry are decoded as the one TXN with these data (R91, R93). -/
theorem decode_entryBytes {data : List Byte} (h : entryLengthOk data.length = true) :
    decode (.entry (entryBytes data)) = .ok (.txn data) := by
  obtain ⟨hpos, hfit⟩ := entryLengthOk_iff.1 h
  have hdecode := decodeEntry_entryBytes data [] hpos hfit
  rw [List.append_nil] at hdecode
  rw [decode, hdecode]

/-- Settles O1: command words by the opcode map, entries by the decoder on a length byte and its data. -/
theorem decodeOfEncodeGivesTheInstruction : Obligations.DecodeOfEncodeGivesTheInstruction := by
  intro i hwf
  have hcommand (o x : Byte) : decode (.command (commandWord o x)) = .ok (commandOf o x) := by
    simp [decode]
  cases i with
  | reset x => exact hcommand _ x
  | applyTable x => exact hcommand _ x
  | readReg x => exact hcommand _ x
  | readStatus x => exact hcommand _ x
  | buildPacket x => exact hcommand _ x
  | transmitPacket x => exact hcommand _ x
  | sendMotorPower x => exact hcommand _ x
  | unassigned o x =>
    exact (hcommand o x).trans (by rw [commandOf_unassigned x (wellFormed_unassigned.1 hwf)]; rfl)
  | tblEnd => rfl
  | txn data => exact decode_entryBytes hwf
  | strobe c => exact decode_entryBytes (data := [c]) rfl
  | wreg pairs => exact decode_entryBytes (by rw [Laws.wregBytes_length]; exact hwf)
  | burst header values =>
    have hlen : entryLengthOk (1 + values.length) = true := (Bool.and_eq_true_iff.1 hwf).2
    exact decode_entryBytes (by rwa [List.length_cons, Nat.add_comm])

/-- Settles O2: a word is its two fields, which are those of the command it decodes to. -/
theorem everyCommandWordReencodes : Obligations.EveryCommandWordReencodes := by
  intro w
  have h := commandOf_wf_encode (cmdOpcode w) (cmdOperand w)
  rwa [commandWord_fields] at h

/-- Settles O3: the bytes taken are the terminator or a length byte with its data. -/
theorem acceptedTableBytesReencode : Obligations.AcceptedTableBytesReencode := by
  intro bytes i rest h
  obtain ⟨rfl, rfl⟩ | ⟨data, rfl, hlen, rfl⟩ := decodeEntry_cases h
  · exact ⟨rfl, .inl rfl, [0x00#8], rfl, rfl⟩
  · exact ⟨entryLengthOk_iff.2 hlen, .inr ⟨data, rfl⟩, entryBytes data, rfl, rfl⟩

/-- Settles O4: each word's fields are looked up in the opcode map, the two entries are decoded. -/
theorem handWrittenWordsDecode : Obligations.HandWrittenWordsDecode :=
  ⟨rfl, rfl, rfl, rfl, rfl, rfl, rfl, rfl, rfl, rfl⟩

end Sys2Proof

namespace Sys2Proof.Machine

/-- Settles O36: the opcode map has no row for the word, and its arm refuses in every state. -/
theorem unassignedOpcodesAreRefused : Obligations.UnassignedOpcodesAreRefused := by
  intro opcode operand s h
  exact ⟨by rw [decodeCommand_commandWord, commandOf_unassigned operand h], rfl⟩

/-- The chip is ready exactly when bit 7 of its status byte is 0 (R12(b), R108). -/
theorem chipReady_eq (status : Byte) : chipReady status = !status.getLsbD 7 := by
  have hmask : readyMask = BitVec.twoPow 8 7 := rfl
  rw [chipReady, hmask, BitVec.and_twoPow]
  cases status.getLsbD 7 <;> rfl

/-- Settles O14: the read bit is a mask of bit 7 alone, and so is the ready flag. -/
theorem readBitAndReadyFlagAreBitSeven : Obligations.ReadBitAndReadyFlagAreBitSeven := by
  intro a
  have hbit : ∀ k < 8, readBit.getLsbD k = (k == 7) := by decide
  exact ⟨fun k hk => by rw [readHeader, BitVec.getLsbD_or, hbit k hk], chipReady_eq a⟩

end Sys2Proof.Machine
end

section
/-! The table and bus statements: END and TXN (41_table_executor.md R152, R153), the entries a table has and
the work of its walk (R158, R159), and the frame (40_bus_primitives.md R134). -/

namespace Sys2Proof.Machine

/-- TXN: one entry, as the record update claims use (R152). -/
theorem exec_txn (data : List Byte) (s : State) : exec (.txn data) s = .next (s.afterEntry data) :=
  congrArg Host.Outcome.next (State.sendEntry_afterEntry data s)

/-- END outside a walk moves `TP` and no more (log 13). -/
theorem State.afterTable_of_not_walk {s : State} (h : ∀ w, s.phase ≠ .walk w) : s.afterTable = s := by
  unfold State.afterTable
  split
  case h_1 w hw => exact absurd hw (h w)
  case h_2 => rfl

/-- Settles O6: one equation for each walk an END can stand in, and one for none. -/
theorem endReturnsToTheCommandInProgress : Obligations.EndReturnsToTheCommandInProgress := by
  intro s
  refine ⟨?_, exec_tblEnd_walk, exec_tblEnd_walk, fun h => ?_⟩
  · rintro (h | h)
    · exact exec_tblEnd_walk h
    · exact exec_tblEnd_walk h
  · rw [exec_tblEnd, State.afterTable_of_not_walk (s := s.fetchEnd) h]
    rfl

/-- Settles O7: the decoder on a length byte and its data, and the frame that one entry makes. -/
theorem entrySendsItsDataInOneFrame : Obligations.EntrySendsItsDataInOneFrame := by
  intro data hpos hfit
  exact ⟨fun rest => decodeEntry_entryBytes data rest hpos hfit, fun s _ _ _ => exec_txn data s⟩

/-- Settles O8: each spelling's arm is that of the TXN it abbreviates. -/
theorem pseudoInstructionsRunAsOneEntry : Obligations.PseudoInstructionsRunAsOneEntry := by
  intro s _ _ _
  exact ⟨fun c => exec_txn [c] s, fun pairs _ => exec_txn (wregBytes pairs) s,
    fun header values _ => exec_txn (header :: values) s⟩

/-- Settles O9: the entry reader finds the entries whose bytes the ROM spells, and no others. -/
theorem tableIsWhatItsBytesSpell : Obligations.TableIsWhatItsBytesSpell :=
  fun _ _ _ => TableRom.table_eq_some_iff

/-- How many exchanges, selections and events a walk of these entries makes (R159). -/
theorem tableEvents_counts (entries : List (List Byte)) (ins : List Byte)
    (h : ins.length = tableTransfers entries) :
    xferCount (tableEvents entries ins) = tableTransfers entries ∧
      (tableEvents entries ins).count (.pin false) = entries.length ∧
      (tableEvents entries ins).length = tableTransfers entries + 2 * entries.length := by
  induction entries generalizing ins with
  | nil => exact ⟨rfl, rfl, rfl⟩
  | cons d ds ih =>
    rw [tableTransfers_cons] at h ⊢
    obtain ⟨hxfer, hlow, hlen⟩ := frameEvents_counts d (ins.take d.length) (by rw [List.length_take]; omega)
    obtain ⟨ihxfer, ihlow, ihlen⟩ := ih (ins.drop d.length) (by rw [List.length_drop]; omega)
    rw [tableEvents, xferCount_append, List.count_append, List.length_append, List.length_cons]
    omega

/-- Settles O12: the walk's events are those of its entries, counted frame by frame. -/
theorem walkDoesExactlyTheWorkOfItsEntries : Obligations.WalkDoesExactlyTheWorkOfItsEntries := by
  intro s t base entries htable h
  rw [State.applyTable_eq htable] at h
  cases h
  exact ⟨_, rfl, tableEvents_counts entries _ (State.nextReplies_length s _)⟩

/-- Settles O13: the frame as one record update, its events counted. -/
theorem frameIsOneSelectedRunOfTransfers : Obligations.FrameIsOneSelectedRunOfTransfers := by
  intro outs s _
  have hlen := (frameEvents_counts outs (s.nextReplies outs.length) (State.nextReplies_length s _)).2.2
  rw [State.frame_afterFrame]
  exact ⟨rfl, rfl, (List.length_append.trans (congrArg _ hlen)).trans (Nat.add_assoc _ _ _).symm⟩

end Sys2Proof.Machine
end

section
/-! The register access and packet framer statements (42_register_access.md R170 to R172;
44_packet_framer.md R190 to R200). -/

namespace Sys2Proof.Machine

/-- Settles O15: the read frame's four events, its second reply kept. -/
theorem readRegKeepsTheSecondReply : Obligations.ReadRegKeepsTheSecondReply :=
  fun _ _ hb hi => exec_readReg_idle hb hi

/-- Settles O16: the same with the status header. -/
theorem readStatusKeepsTheSecondReply : Obligations.ReadStatusKeepsTheSecondReply :=
  fun _ _ hb hi => exec_readStatus_idle hb hi

/-- The status header is the read header of register 0 (R104, R172). -/
theorem readHeader_zero : readHeader 0#8 = cmdStatus := rfl

/-- Settles O19: the two headers are one byte, so the frames and their replies are the same. -/
theorem readStatusIsReadRegZeroOnTheBus : Obligations.ReadStatusIsReadRegZeroOnTheBus := by
  intro operand s hb hi
  refine ⟨_, _, exec_readStatus_idle hb hi, exec_readReg_idle hb hi, ?_, rfl⟩
  rw [readHeader_zero]
  rfl

/-- BUILD_PACKET on an idle machine fills the buffer and completes (R190). -/
theorem exec_buildPacket_idle {x : Byte} {s : State} (hb : s.busy = false) :
    exec (.buildPacket x) s = .next ((s.accept Opcode.buildPacket x).buildPacket x).complete := by
  rw [exec_buildPacket, State.onAccept_idle hb, State.accept_arg]

/-- Settles O20: the opcode map, and the buffer that BUILD_PACKET leaves. -/
theorem buildPacketFillsTheBuffer : Obligations.BuildPacketFillsTheBuffer :=
  fun power _ => ⟨decodeCommand_commandWord _ power,
    fun hb => ⟨_, exec_buildPacket_idle hb, rfl, rfl, rfl, rfl⟩⟩

/-- Settles O21: with the four fields put back, the next state is an idle machine's own state. -/
theorem buildPacketTouchesNothingElse : Obligations.BuildPacketTouchesNothingElse := by
  intro power s hb hp
  refine ⟨_, exec_buildPacket_idle hb, ?_⟩
  cases s
  cases hb
  cases hp
  rfl

/-- `s` after a transmit by the tables of R211 and R212, but for the radio's tape and the trace. -/
def State.transmitted (replies : List Byte) (trace : List Event) (s : State) : State :=
  { s with
    cnt := 0#8
    tp := s.rom.postLoadBase + 3#16
    pktValid := false
    busy := false
    phase := .idle
    csN := true
    replies := replies
    drawn := s.drawn + 12
    trace := trace }

/-- The events of a transmit: flush strobe, idle strobe, FIFO load, transmit strobe (R200). -/
def State.transmitEvents (s : State) : List Event :=
  frameEvents [s.params.cmdSftx] [s.replyAt 0] ++
  frameEvents [s.params.cmdSidle] [s.replyAt 1] ++
  frameEvents (s.params.cmdTxfifoBurst :: s.pkt.bytes)
    [s.replyAt 2, s.replyAt 3, s.replyAt 4, s.replyAt 5, s.replyAt 6, s.replyAt 7, s.replyAt 8,
      s.replyAt 9, s.replyAt 10] ++
  frameEvents [s.params.cmdStx] [s.replyAt 11]

/-- What a transmit asks for does not depend on the replies (R200). -/
theorem State.transmitEvents_request (s : State) :
    s.transmitEvents.map Event.request = transmitRequests s.params s.pkt.bytes := rfl

/-- A transmit on a ROM that holds the two transmit tables (R193, R200). -/
theorem State.transmit_of_holds {s : State} (h : s.rom.holdsTransmitTables s.params) :
    s.transmit = .next (s.transmitted (s.replies.drop 12) (s.trace ++ s.transmitEvents)) := by
  obtain ⟨hpre, hpost⟩ := h
  let a := s.afterWalk s.rom.preTxBase (preTxEntries s.params)
  let b := a.afterFrame (s.params.cmdTxfifoBurst :: s.pkt.bytes)
  have hload (k : Nat) : a.replyAt k = s.replyAt (2 + k) := State.replyAt_drop 2 rfl rfl k
  have hstrobe (k : Nat) : b.replyAt k = a.replyAt (9 + k) := State.replyAt_drop 9 rfl rfl k
  have htrace : b.trace ++ tableEvents (postLoadEntries s.params) (b.nextReplies 1) =
      s.trace ++ s.transmitEvents := by
    have hb : b.nextReplies 1 = [s.replyAt 11] := by simp [State.nextReplies, hstrobe, hload]
    have ha : a.nextReplies 9 = [s.replyAt 2, s.replyAt 3, s.replyAt 4, s.replyAt 5, s.replyAt 6,
        s.replyAt 7, s.replyAt 8, s.replyAt 9, s.replyAt 10] := by
      simp [State.nextReplies, List.range_succ, hload]
    rw [hb]
    show s.trace ++ _ ++ frameEvents _ (a.nextReplies 9) ++ _ = _
    rw [ha, List.append_assoc, List.append_assoc]
    rfl
  have hreplies : ((s.replies.drop 2).drop 9).drop 1 = s.replies.drop 12 := by simp only [List.drop_drop]
  rw [State.transmit_eq hpre hpost]
  exact congrArg Host.Outcome.next (congrArg₂ s.transmitted hreplies htrace)

/-- Settles O24: the transmit of the accepted state, which has the accepting state's tape and packet. -/
theorem transmitSendsFourFramesAndUsesThePacket : Obligations.TransmitSendsFourFramesAndUsesThePacket := by
  intro operand s hb hi hv hrom
  rw [exec_transmitPacket_idle hb hi hv]
  exact State.transmit_of_holds (s := s.accept Opcode.transmitPacket operand) hrom

/-- Settles O25: the transmit of the state in which the packet of the power has been built. -/
theorem sendMotorPowerSendsThePacketOfItsPower : Obligations.SendMotorPowerSendsThePacketOfItsPower := by
  intro power s hb hi hrom
  let built := (s.accept Opcode.sendMotorPower power).buildPacket power
  refine ⟨_, (exec_sendMotorPower_idle hb hi).trans (State.transmit_of_holds (s := built) hrom), ?_, rfl⟩
  rw [newRequests_of (s := s) (es := built.transmitEvents) rfl, State.transmitEvents_request]
  rfl

/-- A transmit does not look at `OP`. -/
theorem State.transmit_op {s t : State} (op : Byte) (h : s.transmit = .next t) :
    State.transmit { s with op := op } = .next { t with op := op } := by
  obtain ⟨pre, post, hpre, hpost, rfl⟩ := State.transmit_cases h
  exact State.transmit_eq (s := { s with op := op }) hpre hpost

/-- Nor does it write `OP`. -/
theorem State.transmit_keeps_op {s t : State} (h : s.transmit = .next t) : t.op = s.op := by
  obtain ⟨pre, post, -, -, rfl⟩ := State.transmit_cases h
  rfl

/-- Settles O26: both ways come to the transmit of one state but for `OP` and `PHASE`, which a transmit does
not look at. -/
theorem sendMotorPowerIsBuildThenTransmit : Obligations.SendMotorPowerIsBuildThenTransmit := by
  intro power s t hb hi
  let sent := (s.accept Opcode.sendMotorPower power).buildPacket power
  let built := ((s.accept Opcode.buildPacket power).buildPacket power).complete
  have htransmit : exec (.transmitPacket power) built =
      State.transmit { sent with op := Opcode.transmitPacket } := by
    rw [exec_transmitPacket_idle (s := built) rfl hi rfl]
    exact State.transmit_phase { sent with op := Opcode.transmitPacket } .idle
  rw [exec_sendMotorPower_idle hb hi]
  constructor
  · intro h
    have hop : t.op = Opcode.sendMotorPower := State.transmit_keeps_op h
    exact ⟨built, _, exec_buildPacket_idle hb, htransmit.trans (State.transmit_op _ h),
      congrArg (fun op => { t with op := op }) hop⟩
  · rintro ⟨b, u, hbuild, hu, rfl⟩
    rw [exec_buildPacket_idle hb] at hbuild
    cases hbuild
    exact State.transmit_op Opcode.sendMotorPower (htransmit.symm.trans hu)

end Sys2Proof.Machine
end

section
/-! The statements about APPLY_TABLE and RESET run whole, and about the refusals of `exec`
(41_table_executor.md R150, R158; 43_reset_command.md R180 to R186; 60_exceptions.md R239, R262). -/

namespace Sys2Proof.Machine

/-- The directory's three rows (R150, R210 to R212). -/
theorem TableRom.base_eq_some {r : TableRom} {id : Byte} {base : TableAddr}
    (h : id = 0#8 ∧ base = r.initBase ∨ id = 1#8 ∧ base = r.preTxBase ∨ id = 2#8 ∧ base = r.postLoadBase) :
    r.base id = some base := by
  rcases h with ⟨rfl, rfl⟩ | ⟨rfl, rfl⟩ | ⟨rfl, rfl⟩
  · rfl
  · rfl
  · rfl

/-- The directory has no row for an id of `N_TABLES` or more (R150). -/
theorem TableRom.base_eq_none_iff {r : TableRom} {id : Byte} : r.base id = none ↔ 3 ≤ id.toNat := by
  unfold TableRom.base
  split
  case isTrue h => subst h; exact ⟨nofun, nofun⟩
  split
  case isTrue h => subst h; exact ⟨nofun, nofun⟩
  split
  case isTrue h => subst h; exact ⟨nofun, nofun⟩
  case isFalse h0 h1 h2 => exact ⟨fun _ => by bv_omega, fun _ => rfl⟩

/-- Settles O27: the chosen row of the directory, and the walk of its table from acceptance. -/
theorem applyTableWalksTheChosenTable : Obligations.ApplyTableWalksTheChosenTable := by
  intro id s base entries hb hi hid htable
  rw [exec_applyTable_idle hb hi (TableRom.base_eq_some hid)]
  exact State.withTable_eq (s := s.accept Opcode.applyTable id) htable _

/-- After the bus and pin steps of a RESET the radio's replies are still to come. -/
theorem State.chipReady_afterPinInit (operand : Byte) (s : State) :
    chipReady ((s.afterPinInit operand).replyAt 1) = !(s.replyAt 1).getLsbD 7 := chipReady_eq _

/-- Settles O28: the ready poll of the state after the bus and pin steps. -/
theorem resetOfAReadyChipSendsInit : Obligations.ResetOfAReadyChipSendsInit := by
  intro operand s entries hb hready htable
  rw [exec_reset_idle hb]
  exact State.pollStatus_ready (s := s.afterPinInit operand)
    (by rw [State.chipReady_afterPinInit, hready, Bool.not_false]) htable

/-- Settles O29: the poll of a chip that is not ready, after the bus and pin steps. -/
theorem resetOfABusyChipKeepsPolling : Obligations.ResetOfABusyChipKeepsPolling := by
  intro operand s hb hbusy
  rw [exec_reset_idle hb]
  exact State.pollStatus_notReady (s := s.afterPinInit operand)
    (by rw [State.chipReady_afterPinInit, hbusy, Bool.not_true])

/-- Settles O59: the ready poll after the bus and pin steps finds no table. -/
theorem resetWithAnIllFormedInitIsRefused : Obligations.ResetWithAnIllFormedInitIsRefused := by
  intro operand s hb hready htable
  rw [exec_reset_idle hb]
  exact State.pollStatus_badTable (s := s.afterPinInit operand)
    (by rw [State.chipReady_afterPinInit, hready, Bool.not_false]) htable

/-- Requests add up along a trace that only grows. -/
theorem newRequests_chain {s t u : State} (h1 : s.trace <+: t.trace) (h2 : t.trace <+: u.trace) :
    newRequests s u = newRequests s t ++ newRequests t u := by
  obtain ⟨a, ha⟩ := h1
  obtain ⟨b, hb⟩ := h2
  exact newRequests_trans ha.symm hb.symm

theorem State.afterFrame_prefix (outs : List Byte) (s : State) : s.trace <+: (s.afterFrame outs).trace :=
  List.prefix_append _ _

theorem State.afterWalk_prefix (base : TableAddr) (entries : List (List Byte)) (s : State) :
    s.trace <+: (s.afterWalk base entries).trace := List.prefix_append _ _

theorem State.afterPinInit_prefix (operand : Byte) (s : State) :
    s.trace <+: (s.afterPinInit operand).trace := List.prefix_append _ _

/-- What the bus and pin steps of a RESET ask for (R181, R182). -/
theorem newRequests_afterPinInit (operand : Byte) (s : State) :
    newRequests s (s.afterPinInit operand) = bootRequests s.params 0 :=
  newRequests_of (t := s.afterPinInit operand) rfl

/-- What a RESET of a chip that is ready at once asks of the bus (R180, R185). -/
theorem exec_reset_requests {x : Byte} {s t : State} (hb : s.busy = false)
    (h : exec (.reset x) s = .next t) (ht : t.busy = false) :
    ∃ entries, s.rom.table s.rom.initBase = some entries ∧
      newRequests s t = bootRequests s.params 1 ++ tableRequests entries := by
  obtain ⟨-, rfl⟩ | ⟨-, entries, htable, rfl⟩ := State.pollStatus_cases (execReset_next hb h)
  · cases ht
  · let p := s.afterPinInit x
    let f := p.afterFrame [cmdStatus, p.params.dummyOut]
    have hp : s.trace <+: p.trace := State.afterPinInit_prefix x s
    have hf : p.trace <+: f.trace := State.afterFrame_prefix _ p
    refine ⟨entries, htable, ?_⟩
    calc newRequests s (f.afterWalk s.rom.initBase entries)
      _ = newRequests s p ++ newRequests p f ++ newRequests f (f.afterWalk s.rom.initBase entries) := by
        rw [newRequests_chain (hp.trans hf) (State.afterWalk_prefix _ _ f), newRequests_chain hp hf]
      _ = bootRequests s.params 1 ++ tableRequests entries := by
        rw [newRequests_afterPinInit, newRequests_afterFrame, newRequests_afterWalk]
        rfl

/-- Settles O33: both RESETs ask for the two boot steps, one status frame and the entries of one table. -/
theorem resetIsIdempotentOnTheBus : Obligations.ResetIsIdempotentOnTheBus := by
  intro a b s s' t t' hrom hparams hb hb' h h' ht ht'
  obtain ⟨entries, htable, hreq⟩ := exec_reset_requests hb h ht
  obtain ⟨entries', htable', hreq'⟩ := exec_reset_requests hb' h' ht'
  rw [hrom, htable] at htable'
  cases htable'
  rw [hreq, hreq', hparams]

/-! ### Refusals -/

theorem State.afterBoot_uninited {s : State} (hi : s.inited = false)
    (rule : State → Host.Outcome State Fault Refusal) : s.afterBoot rule = .refused .beforeReset := by
  simp [State.afterBoot, hi]

/-- A rule behind the command port and the boot check is refused before the first RESET (R262). -/
theorem State.onAccept_uninited {s : State} (hb : s.busy = false) (hi : s.inited = false)
    (opcode operand : Byte) (rule : State → Host.Outcome State Fault Refusal) :
    (s.onAccept opcode operand fun s => s.afterBoot rule) = .refused .beforeReset := by
  rw [State.onAccept_idle hb]
  exact State.afterBoot_uninited (s := s.accept opcode operand) hi rule

/-- Settles O34: each of the five rules stands behind the boot check. -/
theorem busCommandsBeforeResetAreRefused : Obligations.BusCommandsBeforeResetAreRefused := by
  intro x s hb hi
  have h (opcode : Byte) := State.onAccept_uninited hb hi opcode x
  exact ⟨h _ _, h _ _, h _ _, h _ _, h _ _⟩

/-- TRANSMIT_PACKET without a packet (R193). -/
theorem exec_transmitPacket_noPacket {x : Byte} {s : State} (hb : s.busy = false) (hi : s.inited = true)
    (hv : s.pktValid = false) : exec (.transmitPacket x) s = .refused .noPacket := by
  rw [exec_transmitPacket, State.onAccept_idle hb,
    State.afterBoot_inited (s := s.accept Opcode.transmitPacket x) hi]
  simp [hv]

/-- APPLY_TABLE with an id outside the directory (R150). -/
theorem exec_applyTable_badTableId {x : Byte} {s : State} (hb : s.busy = false) (hi : s.inited = true)
    (hbase : s.rom.base x = none) : exec (.applyTable x) s = .refused .badTableId := by
  rw [exec_applyTable, State.onAccept_idle hb,
    State.afterBoot_inited (s := s.accept Opcode.applyTable x) hi]
  simp only [State.accept_rom, State.accept_arg, hbase]

/-- Settles O55: the three positions at which the walker reads the ROM, each with nothing to read. -/
theorem fetchesOutsideATableAreRefused : Obligations.FetchesOutsideATableAreRefused := by
  intro s w hb
  refine ⟨fun base hp hbase htable => ?_, fun hp hread => ?_, fun hp hread => ?_⟩
  · rw [step_table hb hp, State.tableStep, hbase]
    simp only [htable]
  · simp only [step_walk hb hp, State.walkStep, hread]
  · simp only [step_data hb hp, State.dataStep, hread]

end Sys2Proof.Machine
end

section
/-! What a step leaves alone: a step of the command in progress, and the acceptance of a command word. The
frame statements follow from these two (10_state.md R22 to R44; 40_bus_primitives.md R137). -/

namespace Sys2Proof.Machine

/-- What the steps of a command in progress leave alone, and which step changes what is left. -/
structure State.BusyMove (s t : State) : Prop where
  rom      : t.rom = s.rom
  params   : t.params = s.params
  pending  : t.pending = s.pending
  op       : t.op = s.op
  arg      : t.arg = s.arg
  pkt      : t.pkt = s.pkt
  /-- at most one event, counted if it is an exchange (R137, D5) -/
  event    : ∃ es, es.length ≤ 1 ∧ t.trace = s.trace ++ es ∧ t.drawn = s.drawn + xferCount es
  /-- set by the end of `PinInit` alone (R182) -/
  inited   : t.inited = s.inited ∨ s.phase = .pinHigh ∧ t.inited = true
  /-- set by the first half of `PinInit` alone (R182) -/
  csOe     : t.csOe = s.csOe ∨ s.phase = .pinMode ∧ t.csOe = true
  /-- cleared by the end of a POST_LOAD walk alone (R193, R199) -/
  pktValid : t.pktValid = s.pktValid ∨ s.phase = .walk .postLoad ∧ t.pktValid = false ∧ t.busy = false
  /-- written by the end of a read's frame alone (R173) -/
  res      : t.res = s.res ∨ (∃ r, s.phase = .close (.keep r)) ∧ t.busy = false

/-- A move that touches only the walker's registers, the pin's level, `BUSY`, `PHASE` and the bus. -/
theorem State.BusyMove.plain {es : List Event} (h : es.length ≤ 1) (s : State) (tp : TableAddr)
    (cnt : Byte) (csN busy : Bool) (phase : Phase) (replies : List Byte) :
    s.BusyMove { s with
      tp := tp, cnt := cnt, csN := csN, busy := busy, phase := phase, replies := replies,
      trace := s.trace ++ es, drawn := s.drawn + xferCount es } :=
  ⟨rfl, rfl, rfl, rfl, rfl, rfl, ⟨es, h, rfl, rfl⟩, .inl rfl, .inl rfl, .inl rfl, .inl rfl⟩

/-- A move without an event. -/
theorem State.BusyMove.silent (s : State) (tp : TableAddr) (cnt : Byte) (busy : Bool) (phase : Phase) :
    s.BusyMove { s with tp := tp, cnt := cnt, busy := busy, phase := phase } :=
  ⟨rfl, rfl, rfl, rfl, rfl, rfl, ⟨[], Nat.zero_le 1, (List.append_nil _).symm, rfl⟩,
    .inl rfl, .inl rfl, .inl rfl, .inl rfl⟩

theorem State.sendStep_busyMove (f : FrameKind) (k : Nat) (s : State) : s.BusyMove (s.sendStep f k) := by
  cases hbyte : (s.frameBytes f)[k]? with
  | none => simp only [State.sendStep, hbyte]; exact .silent s s.tp s.cnt s.busy s.phase
  | some b => rw [State.sendStep_eq hbyte]; exact .plain (es := [.xfer b _]) (Nat.le_refl 1) s ..

theorem State.closeStep_busyMove {s : State} {c : Closing} (hp : s.phase = .close c) :
    s.BusyMove (s.closeStep c) := by
  cases c with
  | poll ready => exact .plain (es := [.pin true]) (Nat.le_refl 1) s ..
  | keep r => exact ⟨rfl, rfl, rfl, rfl, rfl, rfl, ⟨[.pin true], Nat.le_refl 1, rfl, rfl⟩,
      .inl rfl, .inl rfl, .inl rfl, .inr ⟨⟨r, hp⟩, rfl⟩⟩
  | drop => exact .plain (es := [.pin true]) (Nat.le_refl 1) s ..

theorem State.afterEnd_busyMove {s : State} {w : Walk} (hp : s.phase = .walk w) :
    s.BusyMove (s.fetchEnd.afterEnd w) := by
  cases w with
  | apply => exact .silent s ..
  | init => exact .silent s ..
  | preTx => exact .silent s ..
  | postLoad => exact ⟨rfl, rfl, rfl, rfl, rfl, rfl, ⟨[], Nat.zero_le 1, (List.append_nil _).symm, rfl⟩,
      .inl rfl, .inl rfl, .inr ⟨hp, rfl, rfl⟩, .inl rfl⟩

/-- Every step of a command in progress is such a move. -/
theorem step_busyMove {s t : State} (hb : s.busy = true) (h : step s = .next t) : s.BusyMove t := by
  obtain ⟨hidle, -⟩ | ⟨hidle, -⟩ | ⟨-, hmove⟩ := step_next_cases h
  · rw [hb] at hidle; cases hidle
  · rw [hb] at hidle; cases hidle
  obtain ⟨-, rfl⟩ | ⟨-, rfl⟩ | ⟨hp, rfl⟩ | ⟨hp, rfl⟩ | ⟨f, -, rfl⟩ | ⟨f, k, -, rfl⟩ | ⟨c, hp, rfl⟩ |
    ⟨w, -, hw⟩ | ⟨w, hp, hw⟩ | ⟨w, -, rfl⟩ | ⟨w, -, hw⟩ | ⟨w, -, rfl⟩ := hmove
  · exact .silent t t.tp t.cnt t.busy t.phase
  · exact .plain (es := [.cfg _ _ _]) (Nat.le_refl 1) s ..
  · exact ⟨rfl, rfl, rfl, rfl, rfl, rfl, ⟨[.pinMode], Nat.le_refl 1, rfl, rfl⟩,
      .inl rfl, .inr ⟨hp, rfl⟩, .inl rfl, .inl rfl⟩
  · exact ⟨rfl, rfl, rfl, rfl, rfl, rfl, ⟨[.pin true], Nat.le_refl 1, rfl, rfl⟩,
      .inr ⟨hp, rfl⟩, .inl rfl, .inl rfl, .inl rfl⟩
  · exact .plain (es := [.pin false]) (Nat.le_refl 1) s ..
  · exact State.sendStep_busyMove f k s
  · exact State.closeStep_busyMove hp
  · obtain ⟨base, entries, -, -, rfl⟩ := State.tableStep_cases hw
    exact .silent s ..
  · obtain ⟨n, -, ⟨-, rfl⟩ | ⟨-, rfl⟩⟩ := State.walkStep_cases hw
    · rw [State.afterTable_walk (s := s.fetchEnd) hp]
      exact State.afterEnd_busyMove hp
    · exact .silent s ..
  · exact .plain (es := [.pin false]) (Nat.le_refl 1) s ..
  · obtain ⟨b, -, rfl⟩ := State.dataStep_cases hw
    exact .plain (es := [.xfer b _]) (Nat.le_refl 1) s ..
  · exact .plain (es := [.pin true]) (Nat.le_refl 1) s ..

/-- What the acceptance of a command word leaves alone, and what it does to the packet (R25, R26, R40). -/
structure State.AcceptMove (opcode operand : Byte) (s t : State) : Prop where
  rom      : t.rom = s.rom
  params   : t.params = s.params
  pending  : t.pending = s.pending
  op       : t.op = opcode
  arg      : t.arg = operand
  trace    : t.trace = s.trace
  drawn    : t.drawn = s.drawn
  inited   : t.inited = s.inited
  csOe     : t.csOe = s.csOe
  csN      : t.csN = s.csN
  res      : t.res = s.res
  packet   : t.pkt = s.pkt ∧ t.pktValid = s.pktValid ∨ t.pkt = packetOf operand ∧ t.pktValid = true ∧
    (opcode = Opcode.buildPacket ∧ t.busy = false ∨ opcode = Opcode.sendMotorPower ∧ t.busy = true)

theorem begin_acceptMove {opcode operand : Byte} {s t : State} (hb : s.busy = false)
    (h : State.begin (commandOf opcode operand) s = .next t) : s.AcceptMove opcode operand t := by
  have hplain (phase : Phase) :
      s.AcceptMove opcode operand { s.accept opcode operand with phase := phase } :=
    ⟨rfl, rfl, rfl, rfl, rfl, rfl, rfl, rfl, rfl, rfl, rfl, .inl ⟨rfl, rfl⟩⟩
  obtain ⟨-, rfl⟩ | ⟨-, -, -, rfl⟩ | ⟨-, -, rfl⟩ | ⟨-, -, rfl⟩ | ⟨ho, rfl⟩ | ⟨-, -, -, rfl⟩ | ⟨ho, -, rfl⟩ :=
    begin_next_cases hb h
  · exact hplain _
  · exact hplain _
  · exact hplain _
  · exact hplain _
  · exact ⟨rfl, rfl, rfl, rfl, rfl, rfl, rfl, rfl, rfl, rfl, rfl, .inr ⟨rfl, rfl, .inl ⟨ho, rfl⟩⟩⟩
  · exact hplain _
  · exact ⟨rfl, rfl, rfl, rfl, rfl, rfl, rfl, rfl, rfl, rfl, rfl, .inr ⟨rfl, rfl, .inr ⟨ho, rfl⟩⟩⟩

/-- A step is nothing at all, the acceptance of a word off the port, or a move of the command in progress. -/
theorem step_moves {s t : State} (h : step s = .next t) :
    (s.busy = false ∧ s.pending = [] ∧ t = s) ∨
    (s.busy = false ∧ ∃ w later, s.pending = w :: later ∧
      State.AcceptMove (cmdOpcode w) (cmdOperand w) { s with pending := later } t) ∨
    (s.busy = true ∧ s.BusyMove t) := by
  obtain hstay | ⟨hb, w, later, hp, hbegin⟩ | ⟨hb, -⟩ := step_next_cases h
  · exact .inl hstay
  · exact .inr (.inl ⟨hb, w, later, hp, begin_acceptMove (s := { s with pending := later }) hb hbegin⟩)
  · exact .inr (.inr ⟨hb, step_busyMove hb h⟩)

/-- A command offered while another is in progress (R40, log 8). -/
theorem State.onAccept_busy {s : State} (hb : s.busy = true) (opcode operand : Byte)
    (rule : State → Host.Outcome State Fault Refusal) : s.onAccept opcode operand rule = .next s := by
  simp [State.onAccept, hb]

/-- Settles O38: no move of a command in progress takes a word, and the port is closed to `exec`. -/
theorem nothingIsAcceptedWhileBusy : Obligations.NothingIsAcceptedWhileBusy := by
  intro s hb
  refine ⟨fun t h => ?_, fun x => ?_⟩
  · have hmove := step_busyMove hb h
    exact ⟨hmove.pending, hmove.op, hmove.arg⟩
  · simp only [exec_reset, exec_applyTable, exec_readReg, exec_readStatus, exec_buildPacket,
      exec_transmitPacket, exec_sendMotorPower, State.onAccept_busy hb, and_self]

/-- Settles O43: neither an acceptance nor a move of a command in progress writes them. -/
theorem romAndParametersNeverChange : Obligations.RomAndParametersNeverChange := by
  intro s t h
  suffices hkeeps : t.rom = s.rom ∧ t.params = s.params from ⟨hkeeps.1, hkeeps.2, fun a => by rw [hkeeps.1]⟩
  obtain ⟨-, -, rfl⟩ | ⟨-, w, later, -, hmove⟩ | ⟨-, hmove⟩ := step_moves h
  · exact ⟨rfl, rfl⟩
  · exact ⟨hmove.rom, hmove.params⟩
  · exact ⟨hmove.rom, hmove.params⟩

/-- Settles O54: an acceptance makes no event, a move of a command in progress at most one. -/
theorem eachStepMakesAtMostOneEvent : Obligations.EachStepMakesAtMostOneEvent := by
  intro s t h
  obtain ⟨-, -, rfl⟩ | ⟨-, w, later, -, hmove⟩ | ⟨-, hmove⟩ := step_moves h
  · exact ⟨[], Nat.zero_le 1, (List.append_nil _).symm, rfl⟩
  · exact ⟨[], Nat.zero_le 1, by rw [hmove.trace, List.append_nil], hmove.drawn⟩
  · exact hmove.event

/-- Settles O44: the event of a step stands at the end of the trace. -/
theorem traceOnlyGrows : Obligations.TraceOnlyGrows := by
  intro s t h
  obtain ⟨es, -, htrace, -⟩ := eachStepMakesAtMostOneEvent s t h
  exact ⟨es, htrace⟩

/-- Settles O45: the two halves of `PinInit` alone write the two bits, and they are positions of a RESET. -/
theorem initedAndPinOutputAreSetOnceByReset : Obligations.InitedAndPinOutputAreSetOnceByReset := by
  intro s t h
  obtain ⟨-, -, rfl⟩ | ⟨-, w, later, -, hmove⟩ | ⟨hb, hmove⟩ := step_moves h
  · exact ⟨id, id, fun _ hne => by simp at hne⟩
  · exact ⟨hmove.inited.trans, hmove.csOe.trans,
      fun _ hne => hne.elim (absurd hmove.inited) (absurd hmove.csOe)⟩
  · refine ⟨fun hi => ?_, fun ho => ?_, fun hinv hne => ⟨hb, ?_⟩⟩
    · exact hmove.inited.elim (·.trans hi) And.right
    · exact hmove.csOe.elim (·.trans ho) And.right
    · have hcommand := hinv.command
      rcases hne with hne | hne
      · rw [(hmove.inited.resolve_left hne).1] at hcommand
        exact of_decide_eq_true hcommand
      · rw [(hmove.csOe.resolve_left hne).1] at hcommand
        exact of_decide_eq_true hcommand

/-- Settles O46: an acceptance writes the packet only for the two builders, a move of a command in progress
only uses it up. -/
theorem onlyBuildersWriteThePacket : Obligations.OnlyBuildersWriteThePacket := by
  intro s t h
  have hsame {P Q : Prop} (hpkt : t.pkt = s.pkt) (hvalid : t.pktValid = s.pktValid) :
      (t.pkt ≠ s.pkt ∨ s.pktValid = false ∧ t.pktValid = true → P) ∧
        (s.pktValid = true → t.pktValid = false → Q) := by
    rw [hvalid]
    cases s.pktValid <;> simp [hpkt]
  obtain ⟨-, -, rfl⟩ | ⟨hb, w, later, hp, hmove⟩ | ⟨-, hmove⟩ := step_moves h
  · exact hsame rfl rfl
  · obtain ⟨hpkt, hvalid⟩ | ⟨-, hvalid, hbuilder⟩ := hmove.packet
    · exact hsame hpkt hvalid
    · exact ⟨fun _ => ⟨hb, w, later, hp, hbuilder⟩, fun _ hv' => by simp [hvalid] at hv'⟩
  · obtain hvalid | ⟨hphase, hvalid, hdone⟩ := hmove.pktValid
    · exact hsame hmove.pkt hvalid
    · exact ⟨fun hne => by simp [hmove.pkt, hvalid] at hne, fun _ _ => ⟨hphase, hdone⟩⟩

/-- Settles O47: the one move that writes `RES` is the end of a read's frame. -/
theorem onlyReadsWriteTheResult : Obligations.OnlyReadsWriteTheResult := by
  intro s t hinv h hne
  obtain ⟨-, -, rfl⟩ | ⟨-, w, later, -, hmove⟩ | ⟨hb, hmove⟩ := step_moves h
  · exact absurd rfl hne
  · exact absurd hmove.res hne
  · obtain ⟨⟨r, hp⟩, hdone⟩ := hmove.res.resolve_left hne
    have hcommand := hinv.command
    rw [hp] at hcommand
    exact ⟨hb, by simpa [Phase.command] using hcommand, hdone⟩

/-- Settles O40: the values of R47 as the state after power-on is written. -/
theorem resetStateHasTheGivenValues : Obligations.ResetStateHasTheGivenValues :=
  ⟨rfl, rfl, rfl, rfl, rfl, rfl⟩

end Sys2Proof.Machine
end

section
/-! The invariant: hardware reset gives it, every step keeps it, and under it no fetch of the walker fails
(10_state.md R23 to R32; 40_bus_primitives.md R135; 45_tables.md R217; 70_reset_and_hazards.md R260). -/

namespace Sys2Proof.Machine

/-! ### `TP` and `CNT` inside a table -/

/-- `TP` moves on past the bytes it has fetched (R24). -/
theorem TableRom.spells_tp_add {r : TableRom} {tp : TableAddr} {xs ys : List Byte}
    (h : r.spells tp.toNat (xs ++ ys)) : r.spells (tp + BitVec.ofNat 16 xs.length).toNat ys := by
  cases ys with
  | nil => exact fun k b hk => nomatch hk
  | cons y ys =>
    have hlt := TableRom.spells_lt h (k := xs.length) (by simp)
    have htp : (tp + BitVec.ofNat 16 xs.length).toNat = tp.toNat + xs.length := by
      rw [BitVec.toNat_add, BitVec.toNat_ofNat, Nat.add_mod_mod, Nat.mod_eq_of_lt hlt]
    rw [htp]
    exact (TableRom.spells_append.1 h).2

theorem TableRom.spells_tp_succ {r : TableRom} {tp : TableAddr} {b : Byte} {bytes : List Byte}
    (h : r.spells tp.toNat (b :: bytes)) : r.spells (tp + 1#16).toNat bytes :=
  TableRom.spells_tp_add (xs := [b]) h

/-- At an entry boundary a byte can be fetched: zero is the terminator, any other the length of an entry whose
data are next (R93, R151). -/
theorem State.atEntry_fetch {s : State} (h : s.atEntry) :
    ∃ n, s.rom.tblRead s.tp.toNat = some n ∧ (n ≠ 0#8 → ∀ w, (s.fetchLength n w).inEntry) := by
  obtain ⟨entries, hok, hspells⟩ := h
  cases entries with
  | nil => exact ⟨0x00#8, (TableRom.spells_cons hspells).1, fun h0 => absurd rfl h0⟩
  | cons d ds =>
    obtain ⟨⟨hpos, hfit⟩, hrest⟩ := List.forall_mem_cons.1 hok
    rw [tableBytes_cons, entryBytes, List.cons_append] at hspells
    refine ⟨_, (TableRom.spells_cons hspells).1, fun _ w =>
      ⟨d, ds, ?_, List.ne_nil_of_length_pos hpos, hrest, TableRom.spells_tp_succ hspells⟩⟩
    rw [State.fetchLength_cnt, BitVec.toNat_ofNat]
    omega

/-- Inside an entry a data byte can be fetched; after it the entry goes on, or it ends at the next boundary
with `CNT` at 0 (R152). -/
theorem State.inEntry_fetch {s : State} (h : s.inEntry) :
    ∃ b, s.rom.tblRead s.tp.toNat = some b ∧
      ∀ t : State, t.rom = s.rom → t.tp = s.tp + 1#16 → t.cnt = s.cnt - 1#8 →
        if s.cnt - 1#8 = 0#8 then t.atEntry else t.inEntry := by
  obtain ⟨data, entries, hlen, hne, hok, hspells⟩ := h
  cases data with
  | nil => exact absurd rfl hne
  | cons b data =>
    have hcnt : (s.cnt - 1#8).toNat = data.length := by rw [List.length_cons] at hlen; bv_omega
    refine ⟨b, (TableRom.spells_cons hspells).1, fun t hrom htp htcnt => ?_⟩
    have hnext := TableRom.spells_tp_succ hspells
    rw [← hrom, ← htp] at hnext
    split
    case isTrue h0 =>
      rw [h0] at hcnt
      rw [List.eq_nil_of_length_eq_zero hcnt.symm] at hnext
      exact ⟨entries, hok, hnext⟩
    case isFalse h0 =>
      refine ⟨data, entries, by rw [htcnt, hcnt], fun hnil => h0 ?_, hok, hnext⟩
      rw [hnil] at hcnt
      exact BitVec.eq_of_toNat_eq hcnt

/-- A well-formed table begins at an entry boundary (R151). -/
theorem State.atEntry_of_table {s : State} {entries : List (List Byte)}
    (h : s.rom.table s.tp = some entries) : s.atEntry :=
  ⟨entries, TableRom.table_eq_some_iff.1 h⟩

/-! ### What the invariant says in one position -/

section
variable {s : State} (h : s.Inv)
include h

theorem State.Inv.idle_of_not_busy (hb : s.busy = false) : s.phase = .idle := by
  by_contra hp
  exact absurd (hb.symm.trans (h.busyPhase.2 hp)) nofun

theorem State.Inv.inited_of_phase {p : Phase} (hp : s.phase = p) (hboot : p.beforeBoot = false) :
    s.inited = true := by
  by_contra hi
  have hbefore := (h.boot (by simpa using hi)).1
  rw [hp, hboot] at hbefore
  cases hbefore

theorem State.Inv.command_of_phase {p : Phase} (hp : s.phase = p) : p.command s.op = true :=
  hp ▸ h.command

theorem State.Inv.disciplined_of_phase {p : Phase} (hp : s.phase = p) : Disciplined s.trace p :=
  hp ▸ h.discipline

theorem State.Inv.atEntry_of_walk {w : Walk} (hp : s.phase = .walk w) : s.atEntry := by
  have hplaced := h.placed
  rwa [State.placed, hp] at hplaced

theorem State.Inv.inEntry_of_select {w : Walk} (hp : s.phase = .select w) : s.inEntry := by
  have hplaced := h.placed
  rwa [State.placed, hp] at hplaced

theorem State.Inv.inEntry_of_data {w : Walk} (hp : s.phase = .data w) : s.inEntry := by
  have hplaced := h.placed
  rwa [State.placed, hp] at hplaced

theorem State.Inv.atEntry_of_deselect {w : Walk} (hp : s.phase = .deselect w) : s.atEntry := by
  have hplaced := h.placed
  rw [State.placed, hp] at hplaced
  exact hplaced.1

theorem State.Inv.walkBase_of_table {w : Walk} (hp : s.phase = .table w) : (s.walkBase w).isSome = true := by
  have hplaced := h.placed
  rwa [State.placed, hp] at hplaced

/-- The words on the port are nothing to the invariant. -/
theorem State.Inv.pending (later : List CmdWord) : State.Inv { s with pending := later } :=
  ⟨h.busyPhase, h.command, h.placed, h.layout, h.romWf, h.chipSelect, h.pinOutput, h.boot, h.packet,
    h.sending, h.discipline, h.counted⟩

/-! ### What is left to show of a step -/

/-- A command word that is accepted keeps the invariant, if its first position is one of its command, between
frames, and in place. -/
theorem State.Inv.of_acceptMove {t : State} {opcode operand : Byte} (hb : s.busy = false)
    (hmove : s.AcceptMove opcode operand t) (busyPhase : t.busy = true ↔ t.phase ≠ .idle)
    (command : t.phase.command opcode = true) (placed : t.placed)
    (boot : s.inited = false → t.phase.beforeBoot = true) (rest : t.phase.inFrame = false)
    (stands : t.phase.stands .rest = true) (hpin : t.phase ≠ .pinHigh)
    (sending : FrameKind.fifo.command opcode = true → t.busy = true → t.pktValid = true) : t.Inv where
  busyPhase := busyPhase
  command := by rwa [hmove.op]
  placed := placed
  layout := by rw [hmove.rom, hmove.params]; exact h.layout
  romWf := by rw [hmove.rom]; exact h.romWf
  chipSelect := by
    have hcs := h.chipSelect
    rw [h.idle_of_not_busy hb] at hcs
    rw [hmove.inited, hmove.csOe, hmove.csN, rest]
    exact hcs
  pinOutput := fun hp => absurd hp hpin
  boot := by
    rw [hmove.inited, hmove.trace]
    exact fun hi => ⟨boot hi, (h.boot hi).2⟩
  packet := by
    obtain ⟨hpkt, hvalid⟩ | ⟨hpkt, -⟩ := hmove.packet
    · rw [hpkt, hvalid]; exact h.packet
    · rw [hpkt]; exact fun _ => rfl
  sending := by rwa [hmove.op]
  discipline := by
    rw [hmove.trace]
    refine (h.disciplined_of_phase (h.idle_of_not_busy hb)).move fun q hq => ?_
    cases of_decide_eq_true hq
    exact stands
  counted := by rw [hmove.trace, hmove.drawn]; exact h.counted

/-- A move of the command in progress keeps what the invariant says of the ROM, the packet and the count of
exchanges. -/
theorem State.Inv.of_busyMove {t : State} (hb : s.busy = true) (hmove : s.BusyMove t)
    (busyPhase : t.busy = true ↔ t.phase ≠ .idle) (command : t.phase.command s.op = true)
    (placed : t.placed) (chipSelect : t.inited = true → t.csOe = true ∧ t.csN = !t.phase.inFrame)
    (pinOutput : t.phase = .pinHigh → t.csOe = true)
    (boot : t.inited = false → t.phase.beforeBoot = true ∧ xferCount t.trace = 0)
    (discipline : Disciplined t.trace t.phase) : t.Inv where
  busyPhase := busyPhase
  command := by rwa [hmove.op]
  placed := placed
  layout := by rw [hmove.rom, hmove.params]; exact h.layout
  romWf := by rw [hmove.rom]; exact h.romWf
  chipSelect := chipSelect
  pinOutput := pinOutput
  boot := boot
  packet := by
    rw [hmove.pkt]
    obtain hvalid | ⟨-, hvalid, -⟩ := hmove.pktValid
    · rw [hvalid]; exact h.packet
    · rw [hvalid]; exact nofun
  sending := by
    rw [hmove.op]
    intro hop hbusy
    obtain hvalid | ⟨-, -, hdone⟩ := hmove.pktValid
    · rw [hvalid]; exact h.sending hop hb
    · exact absurd (hdone.symm.trans hbusy) nofun
  discipline := discipline
  counted := by
    obtain ⟨es, -, htrace, hdrawn⟩ := hmove.event
    rw [htrace, hdrawn, xferCount_append]
    exact Nat.add_le_add_right h.counted _

/-- After boot a move from position `p` keeps the invariant if its new position is one of the same command, in
place, with the pin at its level and the trace where it stands. -/
theorem State.Inv.of_bootedMove {t : State} {p : Phase} (hb : s.busy = true) (hp : s.phase = p)
    (hboot : p.beforeBoot = false) (hmove : s.BusyMove t) (busyPhase : t.busy = true ↔ t.phase ≠ .idle)
    (command : p.command s.op = true → t.phase.command s.op = true) (placed : t.placed)
    (csN : t.csN = !t.phase.inFrame) (hpin : t.phase ≠ .pinHigh)
    (discipline : Disciplined s.trace p → Disciplined t.trace t.phase) : t.Inv := by
  have hi := h.inited_of_phase hp hboot
  have hti : t.inited = true := hmove.inited.elim (·.trans hi) And.right
  have hto : t.csOe = true := hmove.csOe.elim (·.trans (h.chipSelect hi).1) And.right
  subst hp
  exact h.of_busyMove hb hmove busyPhase (command h.command) placed (fun _ => ⟨hto, csN⟩)
    (fun hp => absurd hp hpin) (fun hti' => absurd (hti.symm.trans hti') nofun) (discipline h.discipline)

/-- Between frames chip-select is high (R135). -/
theorem State.Inv.csN_of_phase {p : Phase} (hp : s.phase = p) (hboot : p.beforeBoot = false) :
    s.csN = !p.inFrame := hp ▸ (h.chipSelect (h.inited_of_phase hp hboot)).2

end

/-! ### The acceptance of a command -/

/-- The acceptance of a command word keeps the invariant. -/
theorem State.Inv.begin {opcode operand : Byte} {s t : State} (h : s.Inv) (hb : s.busy = false)
    (hbegin : State.begin (commandOf opcode operand) s = .next t) : t.Inv := by
  have hmove := begin_acceptMove hb hbegin
  have hbooted {P : Prop} (hi : s.inited = true) (hi' : s.inited = false) : P :=
    absurd (hi.symm.trans hi') nofun
  obtain ⟨rfl, rfl⟩ | ⟨rfl, hi, hbase, rfl⟩ | ⟨rfl, hi, rfl⟩ | ⟨rfl, hi, rfl⟩ | ⟨rfl, rfl⟩ |
    ⟨rfl, hi, hv, rfl⟩ | ⟨rfl, hi, rfl⟩ := begin_next_cases hb hbegin
  · exact h.of_acceptMove hb hmove (iff_of_true rfl nofun) rfl trivial (fun _ => rfl) rfl rfl nofun nofun
  · exact h.of_acceptMove hb hmove (iff_of_true rfl nofun) rfl hbase (hbooted hi) rfl rfl nofun nofun
  · exact h.of_acceptMove hb hmove (iff_of_true rfl nofun) rfl trivial (hbooted hi) rfl rfl nofun nofun
  · exact h.of_acceptMove hb hmove (iff_of_true rfl nofun) rfl trivial (hbooted hi) rfl rfl nofun nofun
  · exact h.of_acceptMove hb hmove (iff_of_false nofun (· rfl)) rfl trivial (fun _ => rfl) rfl rfl nofun
      nofun
  · exact h.of_acceptMove hb hmove (iff_of_true rfl nofun) rfl rfl (hbooted hi) rfl rfl nofun (fun _ _ => hv)
  · exact h.of_acceptMove hb hmove (iff_of_true rfl nofun) rfl rfl (hbooted hi) rfl rfl nofun (fun _ _ => rfl)

/-! ### The steps of a command in progress -/

theorem State.frameBytes_length_pos (f : FrameKind) (s : State) : 0 < (s.frameBytes f).length := by
  cases f <;> exact Nat.succ_pos _

/-- The frame whose last byte has just been exchanged ends as its command does. -/
theorem FrameKind.closing_command {f : FrameKind} {op : Byte} (r : Byte) (h : f.command op = true) :
    (Phase.close (f.closing r)).command op = true := by
  cases f with
  | status => exact h
  | readReg => exact Bool.or_eq_true_iff.2 (.inl h)
  | readStatus => exact Bool.or_eq_true_iff.2 (.inr h)
  | fifo => exact h

/-- One event leads from the one place where the old position stands to where the new one does. -/
theorem Disciplined.snoc_from {tr : List Event} {p p' : Phase} {e : Event} (h : Disciplined tr p)
    (q r : BusPos) (hp : ∀ q', p.stands q' = decide (q' = q)) (he : q.next e = some r)
    (hp' : p'.stands r = true) : Disciplined (tr ++ [e]) p' :=
  h.snoc fun q' hq => ⟨r, by rwa [of_decide_eq_true ((hp q').symm.trans hq)], hp'⟩

section
variable {s t : State} (h : s.Inv) (hb : s.busy = true)
include h hb

/-- The three steps of RESET before its first frame (R181, R182). -/
theorem State.Inv.step_boot (hbefore : s.phase = .configure ∨ s.phase = .pinMode ∨ s.phase = .pinHigh)
    (hstep : step s = .next t) : t.Inv := by
  have hmove := step_busyMove hb hstep
  have hcs := h.chipSelect
  have hboot := h.boot
  obtain hp | hp | hp := hbefore
  · rw [step_configure hb hp] at hstep
    cases hstep
    rw [hp] at hcs hboot
    exact h.of_busyMove hb hmove (iff_of_true hb nofun) (h.command_of_phase hp :) trivial hcs nofun
      (fun hi => ⟨rfl, (xferCount_append _ _).trans (hboot hi).2⟩)
      ((h.disciplined_of_phase hp).snoc_from .rest .configured (fun _ => rfl) rfl rfl)
  · rw [step_pinMode hb hp] at hstep
    cases hstep
    rw [hp] at hcs hboot
    exact h.of_busyMove hb hmove (iff_of_true hb nofun) (h.command_of_phase hp :) trivial
      (fun hi => ⟨rfl, (hcs hi).2⟩) (fun _ => rfl)
      (fun hi => ⟨rfl, (xferCount_append _ _).trans (hboot hi).2⟩)
      ((h.disciplined_of_phase hp).snoc_from .configured .output (fun _ => rfl) rfl rfl)
  · have hoe := h.pinOutput hp
    rw [step_pinHigh hb hp] at hstep
    cases hstep
    exact h.of_busyMove hb hmove (iff_of_true hb nofun) (h.command_of_phase hp :) trivial
      (fun _ => ⟨hoe, rfl⟩) nofun nofun
      ((h.disciplined_of_phase hp).snoc_from .output .rest (fun _ => rfl) rfl rfl)

/-- Chip-select falls and a frame begins (R134). -/
theorem State.Inv.step_frame {f : FrameKind} (hp : s.phase = .frame f) (hstep : step s = .next t) :
    t.Inv := by
  have hmove := step_busyMove hb hstep
  rw [Machine.step_frame hb hp] at hstep
  cases hstep
  exact h.of_bootedMove hb hp rfl hmove (iff_of_true hb nofun) id (State.frameBytes_length_pos f _) rfl
    nofun fun hdisc => hdisc.snoc_from .rest .selected (fun _ => rfl) rfl rfl

/-- A byte of a frame is exchanged: another one follows, or the frame is about to end (R134, R136). -/
theorem State.Inv.step_send {f : FrameKind} {k : Nat} (hp : s.phase = .send f k) (hstep : step s = .next t) :
    t.Inv := by
  have hmove := step_busyMove hb hstep
  have hk : k < (s.frameBytes f).length := by
    have hplaced := h.placed
    rwa [State.placed, hp] at hplaced
  have hcs := h.csN_of_phase hp rfl
  rw [Machine.step_send hb hp, State.sendStep_eq (List.getElem?_eq_getElem hk)] at hstep
  by_cases hmore : k + 1 < (s.frameBytes f).length
  · rw [if_pos hmore] at hstep
    cases hstep
    refine h.of_bootedMove hb hp rfl hmove (iff_of_true hb nofun) id ?_ hcs nofun fun hdisc =>
      hdisc.snoc fun q hq => ⟨.moving, Phase.send_next f k _ _ hq, by simp [Phase.stands]⟩
    cases f <;> exact hmore
  · rw [if_neg hmore] at hstep
    cases hstep
    exact h.of_bootedMove hb hp rfl hmove (iff_of_true hb nofun) (FrameKind.closing_command _) trivial
      hcs nofun fun hdisc => hdisc.snoc fun q hq => ⟨.moving, Phase.send_next f k _ _ hq, rfl⟩

/-- Chip-select rises and the frame ends (R173, R183, R193). -/
theorem State.Inv.step_close {c : Closing} (hp : s.phase = .close c) (hstep : step s = .next t) : t.Inv := by
  have hmove := step_busyMove hb hstep
  rw [Machine.step_close hb hp] at hstep
  cases hstep
  have hdisc {p : Phase} (hstands : p.stands .rest = true) (hd : Disciplined s.trace (.close c)) :
      Disciplined (s.trace ++ [.pin true]) p :=
    hd.snoc fun q hq => ⟨.rest, Phase.close_next c hq, hstands⟩
  cases c with
  | poll ready =>
    cases ready with
    | true => exact h.of_bootedMove hb hp rfl hmove (iff_of_true hb nofun) id rfl rfl nofun (hdisc rfl)
    | false =>
      exact h.of_bootedMove hb hp rfl hmove (iff_of_true hb nofun) id trivial rfl nofun (hdisc rfl)
  | keep r =>
    exact h.of_bootedMove hb hp rfl hmove (iff_of_false nofun (· rfl)) (fun _ => rfl) trivial rfl nofun
      (hdisc rfl)
  | drop => exact h.of_bootedMove hb hp rfl hmove (iff_of_true hb nofun) id rfl rfl nofun (hdisc rfl)

/-- A walk begins on a well-formed table (R151). -/
theorem State.Inv.step_table {w : Walk} (hp : s.phase = .table w) (hstep : step s = .next t) : t.Inv := by
  have hmove := step_busyMove hb hstep
  have hcs := h.csN_of_phase hp rfl
  rw [Machine.step_table hb hp] at hstep
  obtain ⟨base, entries, -, htable, rfl⟩ := State.tableStep_cases hstep
  exact h.of_bootedMove hb hp rfl hmove (iff_of_true hb nofun) id
    (State.atEntry_of_table (s := { s with tp := base, phase := .walk w }) htable) hcs nofun
    fun hdisc => hdisc.move fun q hq => hq

/-- A length byte is fetched: the terminator ends the walk, any other begins an entry (R151 to R153). -/
theorem State.Inv.step_walk {w : Walk} (hp : s.phase = .walk w) (hstep : step s = .next t) : t.Inv := by
  have hmove := step_busyMove hb hstep
  have hcs := h.csN_of_phase hp rfl
  have hentry := h.atEntry_of_walk hp
  rw [Machine.step_walk hb hp] at hstep
  obtain ⟨n, hread, ⟨-, rfl⟩ | ⟨hn, rfl⟩⟩ := State.walkStep_cases hstep
  · rw [State.afterTable_walk (s := s.fetchEnd) hp] at hmove ⊢
    have hend : (State.complete s.fetchEnd).busy = true ↔ (State.complete s.fetchEnd).phase ≠ .idle :=
      iff_of_false nofun (· rfl)
    have hdisc (hd : Disciplined s.trace (.walk w)) : Disciplined s.trace .idle := hd.move fun q hq => hq
    cases w with
    | apply => exact h.of_bootedMove hb hp rfl hmove hend (fun _ => rfl) trivial hcs nofun hdisc
    | init => exact h.of_bootedMove hb hp rfl hmove hend (fun _ => rfl) trivial hcs nofun hdisc
    | preTx =>
      exact h.of_bootedMove hb hp rfl hmove (iff_of_true hb nofun) id trivial hcs nofun
        fun hd => hd.move fun q hq => hq
    | postLoad => exact h.of_bootedMove hb hp rfl hmove hend (fun _ => rfl) trivial hcs nofun hdisc
  · obtain ⟨n', hread', hlength⟩ := State.atEntry_fetch hentry
    rw [hread] at hread'
    cases hread'
    exact h.of_bootedMove hb hp rfl hmove (iff_of_true hb nofun) id (hlength hn w) hcs nofun
      fun hdisc => hdisc.move fun q hq => hq

/-- Chip-select falls for an entry (R152). -/
theorem State.Inv.step_select {w : Walk} (hp : s.phase = .select w) (hstep : step s = .next t) : t.Inv := by
  have hmove := step_busyMove hb hstep
  have hentry := h.inEntry_of_select hp
  rw [Machine.step_select hb hp] at hstep
  cases hstep
  exact h.of_bootedMove hb hp rfl hmove (iff_of_true hb nofun) id hentry rfl nofun
    fun hdisc => hdisc.snoc_from .rest .selected (fun _ => rfl) rfl rfl

/-- A data byte of an entry is exchanged: another one follows, or the entry is about to end (R152). -/
theorem State.Inv.step_data {w : Walk} (hp : s.phase = .data w) (hstep : step s = .next t) : t.Inv := by
  have hmove := step_busyMove hb hstep
  have hcs := h.csN_of_phase hp rfl
  obtain ⟨b, -, hnext⟩ := State.inEntry_fetch (h.inEntry_of_data hp)
  rw [Machine.step_data hb hp] at hstep
  obtain ⟨b', -, ht⟩ := State.dataStep_cases hstep
  have hentry := hnext t (ht ▸ rfl) (ht ▸ rfl) (ht ▸ rfl)
  by_cases hlast : s.cnt - 1#8 = 0#8
  · rw [if_pos hlast] at ht hentry
    subst ht
    exact h.of_bootedMove hb hp rfl hmove (iff_of_true hb nofun) id ⟨hentry, hlast⟩ hcs nofun
      fun hdisc => hdisc.snoc fun q hq => ⟨.moving, Phase.data_next w _ _ hq, rfl⟩
  · rw [if_neg hlast] at ht hentry
    subst ht
    exact h.of_bootedMove hb hp rfl hmove (iff_of_true hb nofun) id hentry hcs nofun
      fun hdisc => hdisc.snoc fun q hq => ⟨.moving, Phase.data_next w _ _ hq, rfl⟩

/-- Chip-select rises after an entry (R152). -/
theorem State.Inv.step_deselect {w : Walk} (hp : s.phase = .deselect w) (hstep : step s = .next t) :
    t.Inv := by
  have hmove := step_busyMove hb hstep
  have hentry := h.atEntry_of_deselect hp
  rw [Machine.step_deselect hb hp] at hstep
  cases hstep
  exact h.of_bootedMove hb hp rfl hmove (iff_of_true hb nofun) id hentry rfl nofun
    fun hdisc => hdisc.snoc_from .moving .rest (fun _ => rfl) rfl rfl

end

/-- Settles O42: the acceptance of a word keeps the invariant, and so does the step of every position. -/
theorem everyStepKeepsTheInvariant : Obligations.EveryStepKeepsTheInvariant := by
  intro s t h hstep
  obtain ⟨-, -, rfl⟩ | ⟨hb, w, later, -, hbegin⟩ | ⟨hb, -⟩ := step_next_cases hstep
  · exact h
  · exact (h.pending later).begin hb hbegin
  cases hp : s.phase with
  | idle => exact absurd hp (h.busyPhase.1 hb)
  | configure => exact h.step_boot hb (.inl hp) hstep
  | pinMode => exact h.step_boot hb (.inr (.inl hp)) hstep
  | pinHigh => exact h.step_boot hb (.inr (.inr hp)) hstep
  | frame f => exact h.step_frame hb hp hstep
  | send f k => exact h.step_send hb hp hstep
  | close c => exact h.step_close hb hp hstep
  | table w => exact h.step_table hb hp hstep
  | walk w => exact h.step_walk hb hp hstep
  | select w => exact h.step_select hb hp hstep
  | data w => exact h.step_data hb hp hstep
  | deselect w => exact h.step_deselect hb hp hstep

/-! ### Hardware reset -/

/-- Hardware reset of a block with a ROM that meets the conditions (R47, R260). -/
theorem State.hardwareReset_inv {s : State} (hlayout : s.rom.layoutOk s.params) (hwf : s.rom.cells.wf) :
    s.hardwareReset.Inv where
  busyPhase := iff_of_false nofun (· rfl)
  command := rfl
  placed := trivial
  layout := hlayout
  romWf := hwf
  chipSelect := nofun
  pinOutput := nofun
  boot := fun _ => ⟨rfl, rfl⟩
  packet := nofun
  sending := nofun
  discipline := ⟨.rest, rfl, rfl⟩
  counted := Nat.zero_le _

/-- Settles O41: power-on is a hardware reset of the block at hand, which meets the conditions. -/
theorem resetStateMeetsTheInvariant : Obligations.ResetStateMeetsTheInvariant :=
  State.hardwareReset_inv (s := State.reset) Config.block.layoutOk Config.block.romWf

/-- Settles O57: the fields of the record update, and the conditions on the ROM, which the invariant has. -/
theorem hardwareResetLeavesTheRom : Obligations.HardwareResetLeavesTheRom :=
  ⟨fun _ => ⟨rfl, rfl, fun _ => rfl, rfl, rfl, rfl, rfl, rfl, rfl,
    fun h => State.hardwareReset_inv h.layout h.romWf⟩, rfl⟩

/-- Settles O52: the ROM's two transmit tables are what their bytes spell. -/
theorem transmitTablesHaveTheirBytes : Obligations.TransmitTablesHaveTheirBytes := by
  intro s h
  obtain ⟨⟨hpre, hpost⟩, -⟩ := h.layout
  exact ⟨(TableRom.table_eq_some_iff.1 hpre).2, (TableRom.table_eq_some_iff.1 hpost).2⟩

/-! ### Refusals under the invariant -/

/-- A ROM that meets the conditions has a well-formed table at every base of its directory (R158, R217). -/
theorem TableRom.layoutOk.table {r : TableRom} {p : Params} {id : Byte} {base : TableAddr}
    (h : r.layoutOk p) (hbase : r.base id = some base) : ∃ entries, r.table base = some entries := by
  obtain ⟨⟨hpre, hpost⟩, init, hinit, -⟩ := h
  unfold TableRom.base at hbase
  split at hbase
  · cases hbase; exact ⟨_, hinit⟩
  split at hbase
  · cases hbase; exact ⟨_, hpre⟩
  split at hbase
  · cases hbase; exact ⟨_, hpost⟩
  · cases hbase

/-- So does every walk of a command (R150, R184, R194, R196). -/
theorem State.walkBase_table {s : State} {w : Walk} {base : TableAddr} (h : s.rom.layoutOk s.params)
    (hbase : s.walkBase w = some base) : ∃ entries, s.rom.table base = some entries := by
  cases w with
  | apply => exact h.table hbase
  | init => exact h.table (id := 0#8) hbase
  | preTx => exact h.table (id := 1#8) hbase
  | postLoad => exact h.table (id := 2#8) hbase

/-- A command in progress is never refused (R230, R239). -/
theorem State.Inv.step_busy_answers {s : State} (h : s.Inv) (hb : s.busy = true) : ∃ t, step s = .next t := by
  cases hp : s.phase with
  | idle => exact absurd hp (h.busyPhase.1 hb)
  | configure => exact ⟨_, step_configure hb hp⟩
  | pinMode => exact ⟨_, step_pinMode hb hp⟩
  | pinHigh => exact ⟨_, step_pinHigh hb hp⟩
  | frame f => exact ⟨_, Machine.step_frame hb hp⟩
  | send f k => exact ⟨_, Machine.step_send hb hp⟩
  | close c => exact ⟨_, Machine.step_close hb hp⟩
  | table w =>
    obtain ⟨base, hbase⟩ := Option.isSome_iff_exists.1 (h.walkBase_of_table hp)
    obtain ⟨entries, htable⟩ := State.walkBase_table h.layout hbase
    exact ⟨_, (Machine.step_table hb hp).trans (State.tableStep_eq hbase htable)⟩
  | walk w =>
    obtain ⟨n, hread, -⟩ := State.atEntry_fetch (h.atEntry_of_walk hp)
    rw [Machine.step_walk hb hp, State.walkStep, hread]
    by_cases hn : n = 0#8
    · exact ⟨_, if_pos hn⟩
    · exact ⟨_, if_neg hn⟩
  | select w => exact ⟨_, Machine.step_select hb hp⟩
  | data w =>
    obtain ⟨b, hread, -⟩ := State.inEntry_fetch (h.inEntry_of_data hp)
    exact ⟨_, (Machine.step_data hb hp).trans (State.dataStep_eq hread)⟩
  | deselect w => exact ⟨_, Machine.step_deselect hb hp⟩

/-- Settles O56: a command in progress answers a next state, so a word stood on the port and was refused. -/
theorem onlyAcceptanceIsRefused : Obligations.OnlyAcceptanceIsRefused := by
  intro s r h hrefused
  cases hb : s.busy with
  | true =>
    obtain ⟨t, hnext⟩ := h.step_busy_answers hb
    rw [hnext] at hrefused
    cases hrefused
  | false =>
    refine ⟨rfl, ?_⟩
    cases hp : s.pending with
    | nil =>
      rw [step_idle hb, State.acceptStep, hp] at hrefused
      cases hrefused
    | cons w later =>
      refine ⟨w, later, rfl, ?_⟩
      rw [step_begin hb hp] at hrefused
      obtain hboot | ⟨hr, hop, hbase⟩ | hpacket | ⟨hr, h1, h2, h3, h4, h5, h6, h7⟩ :=
        begin_refused_cases (s := { s with pending := later }) hb hrefused
      · exact .inl hboot
      · exact .inr (.inr (.inr ⟨hr, hop, TableRom.base_eq_none_iff.1 hbase⟩))
      · exact .inr (.inl hpacket)
      · have hrange : (cmdOpcode w).toNat = 0 ∨ 8 ≤ (cmdOpcode w).toNat := by
          simpa [h1, h2, h3, h4, h5, h6, h7] using opcode_cases (cmdOpcode w)
        exact .inr (.inr (.inl ⟨hr, hrange.imp_left BitVec.eq_of_toNat_eq⟩))

end Sys2Proof.Machine
end

section
/-! How the assigned commands begin after boot, and that each of them runs (30_encoding.md R97;
60_exceptions.md R246). -/

namespace Sys2Proof.Machine

/-! Each command's first position, once it is accepted. -/

theorem begin_reset_idle {x : Byte} {s : State} (hb : s.busy = false) :
    State.begin (.reset x) s = .next { s.accept Opcode.reset x with phase := .configure } := by
  rw [State.begin, State.onAccept_idle hb]

theorem begin_applyTable_idle {x : Byte} {s : State} {base : TableAddr} (hb : s.busy = false)
    (hi : s.inited = true) (hbase : s.rom.base x = some base) :
    State.begin (.applyTable x) s = .next { s.accept Opcode.applyTable x with phase := .table .apply } := by
  rw [State.begin, State.onAccept_idle hb,
    State.afterBoot_inited (s := s.accept Opcode.applyTable x) hi]
  simp only [State.accept_rom, State.accept_arg, hbase]

theorem begin_readReg_idle {x : Byte} {s : State} (hb : s.busy = false) (hi : s.inited = true) :
    State.begin (.readReg x) s = .next { s.accept Opcode.readReg x with phase := .frame .readReg } := by
  rw [State.begin, State.onAccept_idle hb, State.afterBoot_inited (s := s.accept Opcode.readReg x) hi]

theorem begin_readStatus_idle {x : Byte} {s : State} (hb : s.busy = false) (hi : s.inited = true) :
    State.begin (.readStatus x) s =
      .next { s.accept Opcode.readStatus x with phase := .frame .readStatus } := by
  rw [State.begin, State.onAccept_idle hb, State.afterBoot_inited (s := s.accept Opcode.readStatus x) hi]

theorem begin_transmitPacket_idle {x : Byte} {s : State} (hb : s.busy = false) (hi : s.inited = true)
    (hv : s.pktValid = true) : State.begin (.transmitPacket x) s =
      .next { s.accept Opcode.transmitPacket x with phase := .table .preTx } := by
  rw [State.begin, State.onAccept_idle hb,
    State.afterBoot_inited (s := s.accept Opcode.transmitPacket x) hi]
  simp [hv]

theorem begin_sendMotorPower_idle {x : Byte} {s : State} (hb : s.busy = false) (hi : s.inited = true) :
    State.begin (.sendMotorPower x) s =
      .next { (s.accept Opcode.sendMotorPower x).buildPacket x with phase := .table .preTx } := by
  rw [State.begin, State.onAccept_idle hb,
    State.afterBoot_inited (s := s.accept Opcode.sendMotorPower x) hi]
  rfl

/-- The commands that 45_tables.md and R246 let run after boot: an assigned opcode, a table id of the
directory, a packet to transmit. -/
structure State.Runnable (opcode operand : Byte) (s : State) : Prop where
  idle    : s.busy = false
  booted  : s.inited = true
  layout  : s.rom.layoutOk s.params
  lo      : 1 ≤ opcode.toNat
  hi      : opcode.toNat ≤ 7
  tableId : opcode.toNat = 2 → operand.toNat ≤ 2
  packet  : opcode.toNat = 6 → s.pktValid = true

/-- A runnable APPLY_TABLE has its row of the directory. -/
theorem State.Runnable.base {x : Byte} {s : State} (h : s.Runnable Opcode.applyTable x) :
    ∃ base, s.rom.base x = some base := by
  cases hbase : s.rom.base x with
  | some base => exact ⟨base, rfl⟩
  | none =>
    have hid := h.tableId rfl
    have hout := TableRom.base_eq_none_iff.1 hbase
    omega

/-- A runnable command is accepted. -/
theorem State.Runnable.begins {o x : Byte} {s : State} (h : s.Runnable o x) :
    ∃ t, State.begin (commandOf o x) s = .next t := by
  obtain ⟨hb, hi, -, hlo, hhi, -, hv⟩ := id h
  obtain rfl | rfl | rfl | rfl | rfl | rfl | rfl | hrange := opcode_cases o
  · exact ⟨_, begin_reset_idle hb⟩
  · obtain ⟨base, hbase⟩ := h.base
    exact ⟨_, begin_applyTable_idle hb hi hbase⟩
  · exact ⟨_, begin_readReg_idle hb hi⟩
  · exact ⟨_, begin_readStatus_idle hb hi⟩
  · exact ⟨_, exec_buildPacket_idle hb⟩
  · exact ⟨_, begin_transmitPacket_idle hb hi (hv rfl)⟩
  · exact ⟨_, begin_sendMotorPower_idle hb hi⟩
  · omega

/-- A poll on a ROM that meets the conditions answers a next state, ready or not. -/
theorem State.pollStatus_answers {s : State} (h : s.rom.layoutOk s.params) : ∃ t, s.pollStatus = .next t := by
  obtain ⟨entries, htable⟩ := h.table (id := 0#8) rfl
  cases hr : chipReady (s.replyAt 1) with
  | true => exact ⟨_, State.pollStatus_ready hr htable⟩
  | false => exact ⟨_, State.pollStatus_notReady hr⟩

/-- A runnable command has its effect. -/
theorem State.Runnable.execs {o x : Byte} {s : State} (h : s.Runnable o x) :
    ∃ t, exec (commandOf o x) s = .next t := by
  obtain ⟨hb, hi, hrom, hlo, hhi, -, hv⟩ := id h
  obtain rfl | rfl | rfl | rfl | rfl | rfl | rfl | hrange := opcode_cases o
  · obtain ⟨t, hpoll⟩ := State.pollStatus_answers (s := s.afterPinInit x) hrom
    exact ⟨t, (exec_reset_idle hb).trans hpoll⟩
  · obtain ⟨base, hbase⟩ := h.base
    obtain ⟨entries, htable⟩ := hrom.table hbase
    exact ⟨_, (exec_applyTable_idle hb hi hbase).trans
      (State.withTable_eq (s := s.accept Opcode.applyTable x) htable _)⟩
  · exact ⟨_, exec_readReg_idle hb hi⟩
  · exact ⟨_, exec_readStatus_idle hb hi⟩
  · exact ⟨_, exec_buildPacket_idle hb⟩
  · exact ⟨_, (exec_transmitPacket_idle hb hi (hv rfl)).trans
      (State.transmit_of_holds (s := s.accept Opcode.transmitPacket x) hrom.1)⟩
  · exact ⟨_, (exec_sendMotorPower_idle hb hi).trans
      (State.transmit_of_holds (s := (s.accept Opcode.sendMotorPower x).buildPacket x) hrom.1)⟩
  · omega

/-- Settles O39: the word's command is runnable, so it is accepted and has its effect. -/
theorem assignedCommandsRunAfterBoot : Obligations.AssignedCommandsRunAfterBoot := by
  intro s w later hb hi hrom hp hlo hhi hid hv
  have h : State.Runnable (cmdOpcode w) (cmdOperand w) { s with pending := later } :=
    ⟨hb, hi, hrom, hlo, hhi, hid, hv⟩
  obtain ⟨t, hbegin⟩ := h.begins
  have hmove := begin_acceptMove (s := { s with pending := later }) hb hbegin
  exact ⟨⟨t, (step_begin hb hp).trans hbegin, hmove.op, hmove.arg, hmove.pending⟩, h.execs⟩

end Sys2Proof.Machine
end

section
/-! The statements about the ROM's contents: what an INIT holds at least (45_tables.md R213, R214), and the
packed layout (R217). -/

namespace Sys2Proof.Machine

/-- An entry that does not read and fits a length byte is a header with bit 7 clear and at most 254 values. -/
theorem writeEntry_iff {d : List Byte} :
    writeEntry d = true ↔
      ∃ header values, d = header :: values ∧ header.getLsbD 7 = false ∧ values.length ≤ 254 := by
  cases d with
  | nil => exact ⟨nofun, nofun⟩
  | cons header values => simp [writeEntry, writeHeader]

theorem InitShape.entriesOk {p : Params} {entries : List (List Byte)} (h : InitShape p entries) :
    entriesOk entries := by
  intro d hd
  obtain ⟨header, values, rfl, -, hlen⟩ := writeEntry_iff.1 (List.all_eq_true.1 h.1 d hd)
  rw [List.length_cons]
  omega

/-- Settles O53: the required entries are those of the content, in the order of R210, and every entry is a
write. -/
theorem initIsAStrobeWritesBurstAndStrobes : Obligations.InitIsAStrobeWritesBurstAndStrobes := by
  intro p entries h
  refine ⟨?_, fun d hd => ?_⟩
  · obtain ⟨-, c, middle, hok, hsub, rfl⟩ := h
    simp only [InitContent.ok, Bool.and_eq_true, decide_eq_true_eq] at hok
    obtain ⟨⟨⟨hwrites, -⟩, hvalues⟩, hflushes⟩ := hok
    refine ⟨[c.softReset], middle, rfl, rfl, c.writes.map wregBytes, c.powerHeader :: c.powerValues,
      c.flushes.map fun b => [b], hsub, by simpa using hwrites, fun d hd => ?_, ?_, by simpa using hflushes,
      fun d hd => ?_⟩
    · obtain ⟨pairs, -, rfl⟩ := List.mem_map.1 hd
      rw [Laws.wregBytes_length, Nat.mul_mod_right]
    · exact Nat.succ_le_succ (List.length_pos_of_ne_nil hvalues)
    · obtain ⟨b, -, rfl⟩ := List.mem_map.1 hd
      rfl
  · obtain ⟨header, values, hd', hbit, -⟩ := writeEntry_iff.1 (List.all_eq_true.1 h.1 d hd)
    obtain ⟨hpos, hfit⟩ := h.entriesOk d hd
    exact ⟨hpos, hfit, header, values, hd', hbit⟩

/-- Settles O58: the further entry goes into the middle, of which the required entries stay a sublist. -/
theorem initMayHaveFurtherEntries : Obligations.InitMayHaveFurtherEntries := by
  intro p before after header values hbefore hafter hbit hlen ⟨hall, c, middle, hok, hsub, heq⟩
  obtain ⟨first, front, rfl⟩ := List.exists_cons_of_ne_nil hbefore
  obtain ⟨back, last, rfl⟩ := (List.eq_nil_or_concat after).resolve_left hafter
  rw [InitContent.entries, List.concat_eq_append, List.cons_append, List.cons.injEq,
    ← List.append_assoc] at heq
  obtain ⟨rfl, heq⟩ := heq
  obtain ⟨rfl, hlast⟩ := List.append_inj' heq rfl
  have hnew : writeEntry (header :: values) = true := writeEntry_iff.2 ⟨header, values, rfl, hbit, hlen⟩
  refine ⟨?_, c, front ++ (header :: values) :: back, hok, hsub.trans ?_, ?_⟩
  · rw [List.all_append, Bool.and_eq_true] at hall
    rw [List.all_append, List.all_cons (a := header :: values), hall.1, hnew, hall.2]
    rfl
  · exact (List.Sublist.refl front).append (List.sublist_cons_self _ back)
  · simp [InitContent.entries, ← hlast]

/-! ### The packed layout -/

/-- The packed ROM reads as the three tables' bytes one after another, and nothing after them (R217). -/
theorem packedRom_tblRead (p : Params) {init : List Byte} (h : init.length + 8 ≤ 65536) (a : Nat) :
    (packedRom p init).tblRead a = (init ++ preTxBytes p ++ postLoadBytes p)[a]? := by
  have hsize : (packedRom p init).size.val = init.length + 8 := Nat.mod_eq_of_lt (by omega)
  have hread := Memory.read_image 0 (init ++ preTxBytes p ++ postLoadBytes p) a
  rw [Nat.zero_add] at hread
  rw [TableRom.tblRead, hsize]
  split
  case isTrue => exact hread
  case isFalse ha =>
    rw [List.getElem?_eq_none]
    rw [List.length_append, List.length_append]
    exact Nat.le_of_not_lt ha

/-- The bytes of the three tables, each from where the one before it ends. -/
theorem packedRom_spells (p : Params) {init : List Byte} (h : init.length + 8 ≤ 65536) :
    (packedRom p init).spells 0 init ∧ (packedRom p init).spells init.length (preTxBytes p) ∧
      (packedRom p init).spells (init.length + 5) (postLoadBytes p) := by
  have hall : (packedRom p init).spells 0 (init ++ preTxBytes p ++ postLoadBytes p) := fun k b hk => by
    rw [packedRom_tblRead p h, Nat.zero_add, hk]
  obtain ⟨hfront, hpost⟩ := TableRom.spells_append.1 hall
  obtain ⟨hinit, hpre⟩ := TableRom.spells_append.1 hfront
  rw [Nat.zero_add] at hpre
  rw [List.length_append, Nat.zero_add] at hpost
  exact ⟨hinit, hpre, hpost⟩

theorem disjoint_of_le {x y : Nat × Nat} (h : x.2 ≤ y.1) : disjoint x y = true := by simp [disjoint, h]

/-- Settles O51: the packed bytes spell the three tables, and their extents follow one another. -/
theorem packedRomHoldsTheThreeTables : Obligations.PackedRomHoldsTheThreeTables := by
  intro p entries hshape hfit
  have hlen := tableBytes_length entries
  have hstrobe (c : Byte) : entriesOk [[c]] := by simp [entriesOk]
  have hstrobes : entriesOk (preTxEntries p) := by simp [entriesOk, preTxEntries]
  let r := packedRom p (tableBytes entries)
  have hprebase : r.preTxBase.toNat = (tableBytes entries).length := by
    simp only [r, packedRom, BitVec.toNat_ofNat]; omega
  have hpostbase : r.postLoadBase.toNat = (tableBytes entries).length + 5 := by
    simp only [r, packedRom, BitVec.toNat_ofNat]; omega
  obtain ⟨hinit, hpre, hpost⟩ := packedRom_spells p (init := tableBytes entries) (by omega)
  rw [← hprebase] at hpre
  rw [← hpostbase] at hpost
  refine ⟨⟨⟨TableRom.table_eq_some_iff.2 ⟨hstrobes, hpre⟩, TableRom.table_eq_some_iff.2 ⟨hstrobe _, hpost⟩⟩,
    entries, TableRom.table_eq_some_iff.2 ⟨hshape.entriesOk, hinit⟩, hshape, ?_, ?_, ?_⟩,
    Memory.image_wf 0 _⟩
  · refine disjoint_of_le (show 0 + tableLength entries ≤ r.preTxBase.toNat from ?_)
    omega
  · refine disjoint_of_le (show 0 + tableLength entries ≤ r.postLoadBase.toNat from ?_)
    omega
  · refine disjoint_of_le (show r.preTxBase.toNat + 5 ≤ r.postLoadBase.toNat from ?_)
    omega

end Sys2Proof.Machine
end

section
/-! The radio steers nothing but the ready poll: two states that differ in the radio's bytes alone stay so
under every operation that a command is made of, the poll left out (40_bus_primitives.md R136; 20_memory.md
R78; 41_table_executor.md R155, R157; 60_exceptions.md R233). -/

namespace Sys2Proof.Machine

/-- The two states differ in nothing but what came from the radio or is still to come from it: `RES`, the
replies in the trace, and the tape. -/
def State.SameButRadio (s s' : State) : Prop :=
  ∃ res trace replies drawn,
    s' = { s with res := res, trace := trace, replies := replies, drawn := drawn } ∧
      trace.map Event.request = s.trace.map Event.request

namespace State.SameButRadio

variable {s s' : State} (h : s.SameButRadio s')
include h

theorem busy : s'.busy = s.busy := by obtain ⟨res, tr, rp, dr, rfl, -⟩ := h; rfl
theorem inited : s'.inited = s.inited := by obtain ⟨res, tr, rp, dr, rfl, -⟩ := h; rfl
theorem pktValid : s'.pktValid = s.pktValid := by obtain ⟨res, tr, rp, dr, rfl, -⟩ := h; rfl
theorem pkt : s'.pkt = s.pkt := by obtain ⟨res, tr, rp, dr, rfl, -⟩ := h; rfl
theorem arg : s'.arg = s.arg := by obtain ⟨res, tr, rp, dr, rfl, -⟩ := h; rfl
theorem phase : s'.phase = s.phase := by obtain ⟨res, tr, rp, dr, rfl, -⟩ := h; rfl
theorem rom : s'.rom = s.rom := by obtain ⟨res, tr, rp, dr, rfl, -⟩ := h; rfl
theorem params : s'.params = s.params := by obtain ⟨res, tr, rp, dr, rfl, -⟩ := h; rfl

/-- What makes no event and does not look at the radio's bytes keeps them the only difference. -/
theorem silent {f : State → State} (htrace : ∀ s, (f s).trace = s.trace)
    (hf : ∀ (s : State) res trace replies drawn,
      f { s with res := res, trace := trace, replies := replies, drawn := drawn } =
        { f s with res := res, trace := trace, replies := replies, drawn := drawn }) :
    (f s).SameButRadio (f s') := by
  obtain ⟨res, tr, rp, dr, rfl, htr⟩ := h
  exact ⟨res, tr, rp, dr, hf s res tr rp dr, htr.trans (congrArg _ (htrace s).symm)⟩

theorem accept (opcode operand : Byte) : (s.accept opcode operand).SameButRadio (s'.accept opcode operand) :=
  h.silent (f := State.accept opcode operand) (fun _ => rfl) fun _ _ _ _ _ => rfl

theorem complete : s.complete.SameButRadio s'.complete :=
  h.silent (f := State.complete) (fun _ => rfl) fun _ _ _ _ _ => rfl

theorem buildPacket (p : Byte) : (s.buildPacket p).SameButRadio (s'.buildPacket p) :=
  h.silent (f := State.buildPacket p) (fun _ => rfl) fun _ _ _ _ _ => rfl

theorem usePacket : s.usePacket.SameButRadio s'.usePacket :=
  h.silent (f := State.usePacket) (fun _ => rfl) fun _ _ _ _ _ => rfl

theorem fetchEnd : s.fetchEnd.SameButRadio s'.fetchEnd :=
  h.silent (f := State.fetchEnd) (fun _ => rfl) fun _ _ _ _ _ => rfl

theorem withPhase (p : Phase) : State.SameButRadio { s with phase := p } { s' with phase := p } :=
  h.silent (f := fun s => { s with phase := p }) (fun _ => rfl) fun _ _ _ _ _ => rfl

theorem withRes (r r' : Byte) : State.SameButRadio { s with res := r } { s' with res := r' } := by
  obtain ⟨res, tr, rp, dr, rfl, htr⟩ := h
  exact ⟨r', tr, rp, dr, rfl, htr⟩

theorem afterEnd (w : Walk) : (s.afterEnd w).SameButRadio (s'.afterEnd w) := by
  cases w with
  | apply => exact h.complete
  | init => exact h.complete
  | preTx => exact h.withPhase _
  | postLoad => exact h.usePacket.complete

theorem afterTable : s.afterTable.SameButRadio s'.afterTable := by
  by_cases hwalk : ∃ w, s.phase = .walk w
  · obtain ⟨w, hw⟩ := hwalk
    rw [State.afterTable_walk hw, State.afterTable_walk (h.phase.trans hw)]
    exact h.afterEnd w
  · rw [not_exists] at hwalk
    rwa [State.afterTable_of_not_walk hwalk, State.afterTable_of_not_walk (h.phase ▸ hwalk)]

/-- A frame asks for the same in both (R136). -/
theorem afterFrame (outs : List Byte) : (s.afterFrame outs).SameButRadio (s'.afterFrame outs) := by
  obtain ⟨res, tr, rp, dr, rfl, htr⟩ := h
  refine ⟨res, _, _, _, rfl, ?_⟩
  simp [State.afterFrame, htr, frameEvents_request]

/-- So does a table entry (R155). -/
theorem afterEntry (data : List Byte) : (s.afterEntry data).SameButRadio (s'.afterEntry data) := by
  obtain ⟨res, tr, rp, dr, rfl, htr⟩ := h
  refine ⟨res, _, _, _, rfl, ?_⟩
  simp [State.afterEntry, htr, frameEvents_request]

/-- So does a walk (R157). -/
theorem afterWalk (base : TableAddr) (entries : List (List Byte)) :
    (s.afterWalk base entries).SameButRadio (s'.afterWalk base entries) := by
  obtain ⟨res, tr, rp, dr, rfl, htr⟩ := h
  refine ⟨res, _, _, _, rfl, ?_⟩
  simp [State.afterWalk, htr, tableEvents_request]

end State.SameButRadio

/-- From two states that differ in the radio's bytes alone the rule answers two that do. -/
def RadioBlind (rule : State → Host.Outcome State Fault Refusal) : Prop :=
  ∀ s s' t : State, s.SameButRadio s' → rule s = .next t → ∃ t', rule s' = .next t' ∧ t.SameButRadio t'

theorem RadioBlind.next {f : State → State} (h : ∀ s s', s.SameButRadio s' → (f s).SameButRadio (f s')) :
    RadioBlind fun s => .next (f s) := by
  intro s s' t hs ht
  cases ht
  exact ⟨_, rfl, h s s' hs⟩

/-- Neither the command port nor the boot check looks at the radio. -/
theorem RadioBlind.onAccept {rule : State → Host.Outcome State Fault Refusal} (h : RadioBlind rule)
    (opcode operand : Byte) : RadioBlind fun s => s.onAccept opcode operand rule := by
  intro s s' t hs ht
  obtain ⟨hb, rfl⟩ | ⟨hb, ht⟩ := State.onAccept_cases ht
  · exact ⟨s', State.onAccept_busy (hs.busy.trans hb) .., hs⟩
  · obtain ⟨t', ht', hs'⟩ := h _ _ t (hs.accept opcode operand) ht
    exact ⟨t', (State.onAccept_idle (hs.busy.trans hb) ..).trans ht', hs'⟩

theorem RadioBlind.afterBoot {rule : State → Host.Outcome State Fault Refusal} (h : RadioBlind rule) :
    RadioBlind fun s => s.afterBoot rule := by
  intro s s' t hs ht
  obtain ⟨hi, ht⟩ := State.afterBoot_cases ht
  obtain ⟨t', ht', hs'⟩ := h s s' t hs ht
  exact ⟨t', (State.afterBoot_inited (hs.inited.trans hi) _).trans ht', hs'⟩

/-- A read drops one reply and keeps the other, and looks at neither (R173). -/
theorem readRule_radioBlind (header : Byte → Byte) : RadioBlind fun s =>
    .next { (s.readFrame (header s.arg)).2 with res := (s.readFrame (header s.arg)).1 }.complete := by
  refine RadioBlind.next fun s s' hs => ?_
  rw [State.readFrame_afterFrame, State.readFrame_afterFrame, hs.arg, hs.params]
  exact ((hs.afterFrame _).withRes _ _).complete

/-- A walk drops every reply (R155). -/
theorem applyRule_radioBlind : RadioBlind fun s => match s.rom.base s.arg with
    | none => .refused .badTableId
    | some base => s.withTable base fun t => .next t.complete := by
  intro s s' t hs ht
  simp only [hs.rom, hs.arg]
  cases hbase : s.rom.base s.arg with
  | none => simp only [hbase] at ht; cases ht
  | some base =>
    simp only [hbase] at ht
    obtain ⟨entries, htable, ht⟩ := State.withTable_cases ht
    cases ht
    exact ⟨_, State.withTable_eq (hs.rom ▸ htable) _, (hs.afterWalk base entries).complete⟩

/-- So do the frames of a transmit (R136, R195). -/
theorem transmit_radioBlind : RadioBlind State.transmit := by
  intro s s' t hs ht
  obtain ⟨pre, post, hpre, hpost, rfl⟩ := State.transmit_cases ht
  rw [State.transmit_eq (hs.rom ▸ hpre) (hs.rom ▸ hpost), hs.rom, hs.params, hs.pkt]
  exact ⟨_, rfl, (((hs.afterWalk _ pre).afterFrame _).afterWalk _ post).usePacket.complete⟩

/-- Every instruction but RESET is made of such rules. -/
theorem exec_radioBlind {i : Instr} (hi : ∀ x, i ≠ .reset x) : RadioBlind (exec i) := by
  have hentry (data : List Byte) : RadioBlind fun s => .next (s.sendEntry data) :=
    RadioBlind.next fun s s' hs => by
      rw [State.sendEntry_afterEntry, State.sendEntry_afterEntry]
      exact hs.afterEntry data
  cases i with
  | reset x => exact absurd rfl (hi x)
  | applyTable x => exact applyRule_radioBlind.afterBoot.onAccept _ x
  | readReg x => exact (readRule_radioBlind readHeader).afterBoot.onAccept _ x
  | readStatus x => exact (readRule_radioBlind fun _ => cmdStatus).afterBoot.onAccept _ x
  | buildPacket x =>
    have hrule : RadioBlind fun s => .next (s.buildPacket s.arg).complete := RadioBlind.next fun s s' hs => by
      rw [hs.arg]
      exact (hs.buildPacket s.arg).complete
    exact hrule.onAccept _ x
  | transmitPacket x =>
    have hrule : RadioBlind fun s => if s.pktValid then s.transmit else .refused .noPacket := by
      intro s s' t hs ht
      cases hv : s.pktValid with
      | true =>
        simp only [hs.pktValid, hv, if_true] at ht ⊢
        exact transmit_radioBlind s s' t hs ht
      | false =>
        simp only [hv] at ht
        cases ht
    exact hrule.afterBoot.onAccept _ x
  | sendMotorPower x =>
    have hrule : RadioBlind fun s => (s.buildPacket s.arg).transmit := by
      intro s s' t hs ht
      simp only [hs.arg]
      exact transmit_radioBlind _ _ t (hs.buildPacket s.arg) ht
    exact hrule.afterBoot.onAccept _ x
  | unassigned o x => exact fun s s' t _ ht => nomatch ht
  | tblEnd => exact RadioBlind.next fun s s' hs => hs.fetchEnd.afterTable
  | txn data => exact hentry data
  | strobe c => exact hentry [c]
  | wreg pairs => exact hentry (wregBytes pairs)
  | burst header values => exact hentry (header :: values)

/-- Settles O50: a state and the same with another tape differ in the radio's bytes alone. -/
theorem radioSteersOnlyTheReadyPoll : Obligations.RadioSteersOnlyTheReadyPoll := by
  intro i s t replies drawn hi ht
  have h : s.SameButRadio { s with replies := replies, drawn := drawn } :=
    ⟨s.res, s.trace, replies, drawn, rfl, rfl⟩
  obtain ⟨t', ht', res, tr, rp, dr, rfl, htr⟩ := exec_radioBlind hi s _ t h ht
  exact ⟨_, ht', htr, rfl⟩

end Sys2Proof.Machine
end

section
/-! Runs of the machine through states with a command in progress: the frames, the walks and the polls step by
step (40_bus_primitives.md R134, R137; 41_table_executor.md R151 to R154; 43_reset_command.md R183). -/

namespace Sys2Proof.Machine

/-! ### Runs -/

/-- A run whose first step is refused is refused. -/
theorem core_run_refused {s : State} {r : Refusal} (n : Nat) (h : step s = .refused r) :
    Sys2Proof.core.run (n + 1) s = .refused r := by
  have hcore : Sys2Proof.core.step s = .refused r := h
  simp only [Host.Core.run, hcore]

theorem core_run_one (s : State) : Sys2Proof.core.run 1 s = step s := by
  cases h : step s with
  | next t => exact core_run_succ 0 h
  | fault r => cases r
  | refused r => exact core_run_refused 0 h

/-- A run that answers a next state took its first step to one. -/
theorem core_run_succ_cases {n : Nat} {s t : State} (h : Sys2Proof.core.run (n + 1) s = .next t) :
    ∃ q, step s = .next q ∧ Sys2Proof.core.run n q = .next t := by
  cases hq : step s with
  | next q => exact ⟨q, rfl, (core_run_succ n hq).symm.trans h⟩
  | fault r => cases r
  | refused r => exact absurd ((core_run_refused n hq).symm.trans h) nofun

/-- What holds of a state and itself, and is passed on backwards by a step, holds of the ends of a run. -/
theorem core_run_rel {R : State → State → Prop} (hrefl : ∀ s, R s s)
    (hstep : ∀ s q t, step s = .next q → R q t → R s t) (n : Nat) {s t : State}
    (h : Sys2Proof.core.run n s = .next t) : R s t := by
  induction n generalizing s with
  | zero => cases h; exact hrefl _
  | succ n ih =>
    obtain ⟨q, hq, hrun⟩ := core_run_succ_cases h
    exact hstep s q t hq (ih hrun)

theorem core_run_trace {n : Nat} {s t : State} (h : Sys2Proof.core.run n s = .next t) :
    s.trace <+: t.trace :=
  core_run_rel (R := fun s t => s.trace <+: t.trace) (fun _ => List.prefix_rfl)
    (fun s q _ hq hqt => by
      obtain ⟨es, htrace⟩ := traceOnlyGrows s q hq
      exact List.IsPrefix.trans ⟨es, htrace.symm⟩ hqt) n h

/-- The port only loses words (R274, log 6). -/
theorem core_run_pending {n : Nat} {s t : State} (h : Sys2Proof.core.run n s = .next t) :
    t.pending.length ≤ s.pending.length :=
  core_run_rel (R := fun s t => t.pending.length ≤ s.pending.length) (fun _ => Nat.le_refl _)
    (fun s q _ hq hqt => by
      obtain ⟨-, -, rfl⟩ | ⟨-, w, later, hp, hmove⟩ | ⟨-, hmove⟩ := step_moves hq
      · exact hqt
      · rw [hmove.pending] at hqt
        rw [hp]
        exact Nat.le_succ_of_le hqt
      · rwa [hmove.pending] at hqt) n h

/-- The `n` steps from `s` come to this outcome, each from a state with a command in progress. -/
def ComesTo (n : Nat) (s : State) (o : Host.Outcome State Fault Refusal) : Prop :=
  Sys2Proof.core.run n s = o ∧ ∀ m < n, ∃ t, Sys2Proof.core.run m s = .next t ∧ t.busy = true

namespace ComesTo

theorem last {s : State} (hb : s.busy = true) : ComesTo 1 s (step s) :=
  ⟨core_run_one s, fun m hm => ⟨s, by rw [Nat.lt_one_iff.1 hm]; rfl, hb⟩⟩

theorem trans {m n : Nat} {s t : State} {o : Host.Outcome State Fault Refusal} (h : ComesTo m s (.next t))
    (h' : ComesTo n t o) : ComesTo (m + n) s o := by
  refine ⟨(core_run_add _ m n h.1).trans h'.1, fun k hk => ?_⟩
  rcases Nat.lt_or_ge k m with hlt | hge
  · exact h.2 k hlt
  · obtain ⟨j, rfl⟩ := Nat.exists_eq_add_of_le hge
    obtain ⟨q, hq, hqb⟩ := h'.2 j (Nat.lt_of_add_lt_add_left hk)
    exact ⟨q, (core_run_add _ m j h.1).trans hq, hqb⟩

theorem of_step {s t : State} (hb : s.busy = true) (h : step s = .next t) : ComesTo 1 s (.next t) :=
  h ▸ last hb

/-- A run that ends with a command in progress and the port as it was has had one in progress throughout. -/
theorem of_run {n : Nat} {s t : State} (h : Sys2Proof.core.run n s = .next t) (hb : t.busy = true)
    (hp : t.pending = s.pending) : ComesTo n s (.next t) := by
  induction n generalizing s with
  | zero => exact ⟨h, nofun⟩
  | succ n ih =>
    obtain ⟨q, hq, hrun⟩ := core_run_succ_cases h
    obtain ⟨hidle, -, rfl⟩ | ⟨-, w, later, hpending, hmove⟩ | ⟨hbusy, hmove⟩ := step_moves hq
    · cases n with
      | zero => cases hrun; rw [hidle] at hb; cases hb
      | succ n =>
        obtain ⟨u, hu, hub⟩ := (ih hrun hp).2 0 (Nat.succ_pos n)
        cases hu; rw [hidle] at hub; cases hub
    · have hlen := core_run_pending hrun
      rw [hmove.pending, hp, hpending] at hlen
      exact absurd hlen (Nat.not_succ_le_self _)
    · rw [Nat.add_comm]
      exact (of_step hbusy hq).trans (ih hrun (hp.trans hmove.pending.symm))

/-- The port stays as it is along the way (R40). -/
theorem pending {n : Nat} {s : State} {o : Host.Outcome State Fault Refusal} (h : ComesTo n s o) {m : Nat}
    (hm : m ≤ n) {t : State} (ht : Sys2Proof.core.run m s = .next t) : t.pending = s.pending := by
  induction m generalizing t with
  | zero => cases ht; rfl
  | succ m ih =>
    obtain ⟨q, hq, hqb⟩ := h.2 m hm
    have hstep := (core_run_one q).symm.trans ((core_run_add _ m 1 hq).symm.trans ht)
    exact (step_busyMove hqb hstep).pending.trans (ih (Nat.le_of_succ_le hm) hq)

end ComesTo

/-! ### Frames -/

/-- What the end of a frame leaves to do besides raising chip-select (R173, R183, R193). -/
def State.afterClosing (c : Closing) (s : State) : State :=
  match c with
  | .poll ready => { s with phase := if ready then .table .init else .frame .status }
  | .keep reply => { s with res := reply }.complete
  | .drop => { s with phase := .table .postLoad }

theorem State.closeStep_eq (c : Closing) (s : State) : s.closeStep c = s.csDeassert.afterClosing c := by
  cases c <;> rfl

theorem State.afterClosing_phase (c : Closing) (p : Phase) (s : State) :
    State.afterClosing c { s with phase := p } = s.afterClosing c := by
  cases c <;> rfl

theorem close_comesTo {s : State} {c : Closing} (hb : s.busy = true) (hp : s.phase = .close c) :
    ComesTo 1 s (.next (s.csDeassert.afterClosing c)) :=
  .of_step hb (by rw [step_close hb hp, State.closeStep_eq])

/-- A frame that does not come from a table, step by step (R134, R137). -/
theorem frame_comesTo {s : State} {f : FrameKind} {m : Nat} (hb : s.busy = true) (hp : s.phase = .frame f)
    (hm : (s.frameBytes f).length = m + 1) :
    ComesTo (m + 3) s
      (.next ((s.afterFrame (s.frameBytes f)).afterClosing (f.closing (s.replyAt m)))) := by
  refine (ComesTo.of_run (run_frame hb hp hm) hb rfl).trans (n := 1) ?_
  refine (congrArg (fun t => ComesTo 1 _ (.next t)) ?_).mp (close_comesTo hb rfl)
  rw [← State.afterClosing_phase _ (.close (f.closing (s.replyAt m))) (s.afterFrame _)]
  refine congrArg (State.afterClosing _) ?_
  simp [State.csDeassert, State.emit, State.afterFrame, frameEvents, hm]

/-- A status frame step by step (R183). -/
theorem status_comesTo {s : State} (hb : s.busy = true) (hp : s.phase = .frame .status) :
    ComesTo statusSteps s (.next { s.afterFrame [0x80#8, s.params.dummyOut] with
      phase := if chipReady (s.replyAt 1) then .table .init else .frame .status }) :=
  frame_comesTo hb hp rfl

/-! ### Walks -/

/-- One data byte, as `ExecTxn`'s loop sends it (R152). -/
def State.sendByte (b : Byte) (s : State) : State :=
  { ({ s with tp := s.tp + 1#16 }.xfer b).2 with cnt := s.cnt - 1#8 }

theorem State.dataStep_sendByte {s : State} {w : Walk} {b : Byte} (h : s.rom.tblRead s.tp.toNat = some b) :
    s.dataStep w = .next { s.sendByte b with
      phase := if s.cnt - 1#8 = 0#8 then .deselect w else .data w } := by
  simp only [State.dataStep, h]
  rfl

theorem State.sendData_phase (data : List Byte) (p : Phase) (s : State) :
    State.sendData data { s with phase := p } = { s.sendData data with phase := p } := by
  rw [State.sendData_eq, State.sendData_eq]
  rfl

theorem lengthByte_eq_zero_iff {n : Nat} (h : n ≤ 255) : BitVec.ofNat 8 n = 0#8 ↔ n = 0 := by
  rw [← BitVec.toNat_inj, BitVec.toNat_ofNat, Nat.mod_eq_of_lt (by omega)]
  rfl

/-- The data bytes of an entry, step by step (R152). -/
theorem data_comesTo {data : List Byte} {s : State} {w : Walk} (hb : s.busy = true) (hp : s.phase = .data w)
    (hcnt : s.cnt = BitVec.ofNat 8 data.length) (hpos : 1 ≤ data.length) (hfit : data.length ≤ 255)
    (hspells : s.rom.spells s.tp.toNat data) :
    ComesTo data.length s (.next { s.sendData data with phase := .deselect w }) := by
  induction data generalizing s with
  | nil => exact absurd hpos (Nat.not_succ_le_zero 0)
  | cons b data ih =>
    have hstep := (step_data hb hp).trans (State.dataStep_sendByte (TableRom.spells_cons hspells).1)
    have hcnt' : s.cnt - 1#8 = BitVec.ofNat 8 data.length := by
      rw [hcnt, List.length_cons, BitVec.ofNat_add, BitVec.add_sub_cancel]
    rw [List.length_cons] at hfit
    rw [List.length_cons, Nat.add_comm]
    cases data with
    | nil =>
      rw [if_pos (show s.cnt - 1#8 = 0#8 from hcnt')] at hstep
      exact ComesTo.of_step hb hstep
    | cons c data =>
      have hmore : s.cnt - 1#8 ≠ 0#8 := by
        rw [hcnt', Ne, lengthByte_eq_zero_iff (by omega)]
        exact nofun
      rw [if_neg hmore] at hstep
      have hrest := ih (s := { s.sendByte b with phase := .data w }) hb rfl hcnt' (Nat.succ_pos _) (by omega)
        (TableRom.spells_tp_succ hspells)
      rw [State.sendData_phase] at hrest
      exact (ComesTo.of_step hb hstep).trans hrest

/-- A table entry step by step: the fetch of its length, chip-select low, its bytes, chip-select high (R151,
R152). -/
theorem entry_comesTo {data : List Byte} {s : State} {w : Walk} (hb : s.busy = true) (hp : s.phase = .walk w)
    (hpos : 1 ≤ data.length) (hfit : data.length ≤ 255)
    (hspells : s.rom.spells s.tp.toNat (entryBytes data)) :
    ComesTo (data.length + 3) s (.next (s.sendEntry data)) := by
  let fetched : State := { s with tp := s.tp + 1#16, cnt := BitVec.ofNat 8 data.length }
  have hzero : BitVec.ofNat 8 data.length ≠ 0#8 := by
    rw [Ne, lengthByte_eq_zero_iff hfit]
    omega
  have hfetch : step s = .next { fetched with phase := .select w } := by
    rw [step_walk hb hp, State.walkStep, (TableRom.spells_cons hspells).1]
    exact if_neg hzero
  have hselect : step { fetched with phase := .select w } =
      .next { fetched.csAssert with phase := .data w } := step_select hb rfl
  have hdata := data_comesTo (s := { fetched.csAssert with phase := .data w }) (w := w) hb rfl rfl hpos hfit
    (TableRom.spells_tp_succ hspells)
  have hbusy : (fetched.csAssert.sendData data).busy = true := by
    rw [State.sendData_eq]
    exact hb
  have hdeselect :=
    step_deselect (s := { fetched.csAssert.sendData data with phase := .deselect w }) hbusy rfl
  have hphase : (s.sendEntry data).phase = .walk w := by
    rw [State.sendEntry_eq]
    exact hp
  have hend : s.sendEntry data = { s.sendEntry data with phase := .walk w } :=
    congrArg (fun p => { s.sendEntry data with phase := p }) hphase
  rw [State.sendData_phase] at hdata
  rw [hend, show data.length + 3 = 1 + (1 + (data.length + 1)) by omega]
  exact (ComesTo.of_step hb hfetch).trans
    ((ComesTo.of_step (s := { fetched with phase := .select w }) hb hselect).trans
      (hdata.trans (ComesTo.of_step hbusy hdeselect)))

/-- A walk step by step: its entries, and the terminator's fetch (R151 to R154). -/
theorem walk_comesTo {entries : List (List Byte)} {s : State} {w : Walk} (hb : s.busy = true)
    (hp : s.phase = .walk w) (hok : entriesOk entries)
    (hspells : s.rom.spells s.tp.toNat (tableBytes entries)) :
    ComesTo (tableSteps entries) s (.next (s.walkEntries entries).afterTable) := by
  induction entries generalizing s with
  | nil =>
    refine ComesTo.of_step hb ?_
    rw [step_walk hb hp, State.walkStep, (TableRom.spells_cons hspells).1]
    rfl
  | cons d ds ih =>
    obtain ⟨⟨hpos, hfit⟩, hok⟩ := List.forall_mem_cons.1 hok
    rw [tableBytes_cons] at hspells
    have hentry := entry_comesTo hb hp hpos hfit (TableRom.spells_append.1 hspells).1
    have htp : (s.sendEntry d).tp = s.tp + BitVec.ofNat 16 (entryBytes d).length := by
      rw [State.sendEntry_eq, Laws.entryBytes_length]
    have hsame : (s.sendEntry d).busy = s.busy ∧ (s.sendEntry d).phase = s.phase ∧
        (s.sendEntry d).rom = s.rom := by
      rw [State.sendEntry_eq]
      exact ⟨rfl, rfl, rfl⟩
    obtain ⟨hb', hp', hrom⟩ := hsame
    have hrest := ih (hb'.trans hb) (hp'.trans hp) hok
      (by rw [htp, hrom]; exact TableRom.spells_tp_add hspells)
    rw [show tableSteps (d :: ds) = d.length + 3 + tableSteps ds by simp [tableSteps, Nat.add_assoc]]
    exact hentry.trans hrest

/-- What follows an `END` sets the position itself. -/
theorem State.afterEnd_phase (w : Walk) (p : Phase) (s : State) :
    State.afterEnd w { s with phase := p } = s.afterEnd w := by
  cases w <;> rfl

/-- `ApplyTable` on a well-formed table, step by step (R151). -/
theorem table_comesTo {s : State} {w : Walk} {base : TableAddr} {entries : List (List Byte)}
    (hb : s.busy = true) (hp : s.phase = .table w) (hbase : s.walkBase w = some base)
    (htable : s.rom.table base = some entries) :
    ComesTo (1 + tableSteps entries) s (.next ((s.afterWalk base entries).afterEnd w)) := by
  have hstep := (step_table hb hp).trans (State.tableStep_eq hbase htable)
  obtain ⟨hok, hspells⟩ := TableRom.table_eq_some_iff.1 htable
  have hwalk := walk_comesTo (s := { s with tp := base, phase := .walk w }) hb rfl hok hspells
  rw [State.walkEntries_eq, State.afterTable_walk (w := w) rfl] at hwalk
  rw [← State.afterEnd_phase w (.walk w)]
  exact (ComesTo.of_step hb hstep).trans hwalk

/-- `ApplyTable` on a table that is not well formed (R158). -/
theorem table_comesTo_refused {s : State} {w : Walk} {base : TableAddr} (hb : s.busy = true)
    (hp : s.phase = .table w) (hbase : s.walkBase w = some base) (htable : s.rom.table base = none) :
    ComesTo 1 s (.refused .badTable) :=
  (fetchesOutsideATableAreRefused s w hb).1 base hp hbase htable ▸ ComesTo.last hb

/-! ### Polls and transmits -/

/-- A poll from where its status frame is due (R183, R184). -/
theorem poll_comesTo {s : State} (hb : s.busy = true) (hp : s.phase = .frame .status) :
    ∃ n, ComesTo n s s.pollStatus := by
  have hstatus := status_comesTo hb hp
  cases hr : chipReady (s.replyAt 1) with
  | false =>
    rw [hr] at hstatus
    exact ⟨_, State.pollStatus_notReady hr ▸ hstatus⟩
  | true =>
    rw [hr] at hstatus
    cases htable : s.rom.table s.rom.initBase with
    | none =>
      rw [State.pollStatus_badTable hr htable]
      exact ⟨_, hstatus.trans (table_comesTo_refused hb rfl rfl htable)⟩
    | some entries =>
      let polled : State := { s.afterFrame [0x80#8, s.params.dummyOut] with phase := .table .init }
      rw [State.pollStatus_ready hr htable]
      exact ⟨_, hstatus.trans (table_comesTo (s := polled) (w := .init) hb rfl rfl htable)⟩

/-- A transmit from where its PRE_TX walk is due (R193). -/
theorem transmit_comesTo {s : State} (hb : s.busy = true) (hp : s.phase = .table .preTx) :
    ∃ n, ComesTo n s s.transmit := by
  cases hpre : s.rom.table s.rom.preTxBase with
  | none =>
    rw [State.transmit_badTable (.inl hpre)]
    exact ⟨_, table_comesTo_refused hb hp rfl hpre⟩
  | some pre =>
    let walked : State := (s.afterWalk s.rom.preTxBase pre).afterEnd .preTx
    let loaded : State := (walked.afterFrame (walked.frameBytes .fifo)).afterClosing .drop
    have hload : ComesTo _ s (.next loaded) :=
      (table_comesTo hb hp rfl hpre).trans (frame_comesTo (s := walked) (f := .fifo) hb rfl rfl)
    cases hpost : s.rom.table s.rom.postLoadBase with
    | none =>
      rw [State.transmit_badTable (.inr hpost)]
      exact ⟨_, hload.trans (table_comesTo_refused hb rfl rfl hpost)⟩
    | some post =>
      rw [State.transmit_eq hpre hpost]
      exact ⟨_, hload.trans (table_comesTo (s := loaded) (w := .postLoad) hb rfl rfl hpost)⟩

/-! ### Commands -/

/-- RESET from its acceptance to its first status frame (R181, R182). -/
theorem boot_comesTo {s : State} (x : Byte) :
    ComesTo 3 { s.accept Opcode.reset x with phase := .configure }
      (.next { s.afterPinInit x with phase := .frame .status }) := by
  have hconfigure := step_configure (s := { s.accept Opcode.reset x with phase := .configure }) rfl rfl
  have houtput := step_pinMode
    (s := { (s.accept Opcode.reset x).busConfigure with phase := .pinMode }) rfl rfl
  have hhigh := step_pinHigh
    (s := { (s.accept Opcode.reset x).busConfigure.pinOutput with phase := .pinHigh }) rfl rfl
  rw [← State.accept_busConfigure_pinInit]
  exact (ComesTo.of_step rfl hconfigure).trans
    ((ComesTo.of_step rfl houtput).trans (ComesTo.of_step rfl hhigh))

/-- An instruction that begins is answered as by `exec` there and then, or its steps come to what `exec`
answers (log 7). -/
def Begins (i : Instr) (s : State) : Prop :=
  State.begin i s = exec i s ∨ ∃ q n, State.begin i s = .next q ∧ ComesTo n q (exec i s)

section
variable {x : Byte} {s : State} (hb : s.busy = false)
include hb

theorem begins_reset : Begins (.reset x) s := by
  obtain ⟨n, hpoll⟩ := poll_comesTo (s := { s.afterPinInit x with phase := .frame .status }) rfl rfl
  rw [State.pollStatus_phase, ← exec_reset_idle hb] at hpoll
  exact .inr ⟨_, _, begin_reset_idle hb, (boot_comesTo x).trans hpoll⟩

/-- Before the first RESET a rule behind the boot check is refused as it begins (R262). -/
theorem begins_uninited (hi : s.inited = false) (opcode : Byte)
    (rule rule' : State → Host.Outcome State Fault Refusal) :
    (s.onAccept opcode x fun s => s.afterBoot rule) = s.onAccept opcode x fun s => s.afterBoot rule' := by
  rw [State.onAccept_uninited hb hi, State.onAccept_uninited hb hi]

theorem begins_applyTable : Begins (.applyTable x) s := by
  cases hi : s.inited with
  | false => exact .inl (begins_uninited hb hi _ _ _)
  | true =>
    let due : State := { s.accept Opcode.applyTable x with phase := .table .apply }
    cases hbase : s.rom.base x with
    | none =>
      refine .inl ?_
      rw [exec_applyTable_badTableId hb hi hbase, State.begin, State.onAccept_idle hb,
        State.afterBoot_inited (s := s.accept Opcode.applyTable x) hi]
      simp only [State.accept_rom, State.accept_arg, hbase]
    | some base =>
      refine .inr ⟨due, ?_⟩
      rw [begin_applyTable_idle hb hi hbase, exec_applyTable_idle hb hi hbase]
      cases htable : s.rom.table base with
      | none =>
        rw [State.withTable_none (s := s.accept Opcode.applyTable x) htable]
        exact ⟨_, rfl, table_comesTo_refused (s := due) rfl rfl hbase htable⟩
      | some entries =>
        rw [State.withTable_eq (s := s.accept Opcode.applyTable x) htable]
        exact ⟨_, rfl, table_comesTo (s := due) (w := .apply) rfl rfl hbase htable⟩

theorem begins_readReg : Begins (.readReg x) s := by
  cases hi : s.inited with
  | false => exact .inl (begins_uninited hb hi _ _ _)
  | true =>
    refine .inr ⟨_, 4, begin_readReg_idle hb hi, ?_⟩
    rw [exec_readReg_idle hb hi]
    exact frame_comesTo (s := { s.accept Opcode.readReg x with phase := .frame .readReg }) rfl rfl rfl

theorem begins_readStatus : Begins (.readStatus x) s := by
  cases hi : s.inited with
  | false => exact .inl (begins_uninited hb hi _ _ _)
  | true =>
    refine .inr ⟨_, 4, begin_readStatus_idle hb hi, ?_⟩
    rw [exec_readStatus_idle hb hi]
    exact frame_comesTo (s := { s.accept Opcode.readStatus x with phase := .frame .readStatus }) rfl rfl rfl

theorem begins_transmitPacket : Begins (.transmitPacket x) s := by
  cases hi : s.inited with
  | false => exact .inl (begins_uninited hb hi _ _ _)
  | true =>
    cases hv : s.pktValid with
    | false =>
      refine .inl ?_
      rw [exec_transmitPacket_noPacket hb hi hv, State.begin, State.onAccept_idle hb,
        State.afterBoot_inited (s := s.accept Opcode.transmitPacket x) hi]
      simp [hv]
    | true =>
      obtain ⟨n, hsend⟩ := transmit_comesTo
        (s := { s.accept Opcode.transmitPacket x with phase := .table .preTx }) rfl rfl
      rw [State.transmit_phase, ← exec_transmitPacket_idle hb hi hv] at hsend
      exact .inr ⟨_, n, begin_transmitPacket_idle hb hi hv, hsend⟩

theorem begins_sendMotorPower : Begins (.sendMotorPower x) s := by
  cases hi : s.inited with
  | false => exact .inl (begins_uninited hb hi _ _ _)
  | true =>
    obtain ⟨n, hsend⟩ := transmit_comesTo
      (s := { (s.accept Opcode.sendMotorPower x).buildPacket x with phase := .table .preTx }) rfl rfl
    rw [State.transmit_phase, ← exec_sendMotorPower_idle hb hi] at hsend
    exact .inr ⟨_, n, begin_sendMotorPower_idle hb hi, hsend⟩

theorem begins_command (o : Byte) : Begins (commandOf o x) s := by
  obtain rfl | rfl | rfl | rfl | rfl | rfl | rfl | hrange := opcode_cases o
  · exact begins_reset hb
  · exact begins_applyTable hb
  · exact begins_readReg hb
  · exact begins_readStatus hb
  · exact .inl rfl
  · exact begins_transmitPacket hb
  · exact begins_sendMotorPower hb
  · rw [commandOf_unassigned x hrange]
    exact .inl rfl

end

/-- The steps from a machine that takes a word off its port come to what `exec` answers, through states with
`BUSY` = 1 in which the port is left alone (R40, R73). -/
theorem command_run {s : State} {w : CmdWord} {later : List CmdWord} (hb : s.busy = false)
    (hp : s.pending = w :: later) :
    ∃ n, Sys2Proof.core.run (n + 1) s = exec (decodeCommand w) { s with pending := later } ∧
      ∀ m, 1 ≤ m → m ≤ n → ∃ t, Sys2Proof.core.run m s = .next t ∧ t.busy = true ∧ t.pending = later := by
  have hstep := step_begin hb hp
  obtain hdone | ⟨q, n, hbegin, hcomes⟩ :=
    begins_command (x := cmdOperand w) (s := { s with pending := later }) hb (cmdOpcode w)
  · exact ⟨0, (core_run_one s).trans (hstep.trans hdone),
      fun m hpos hle => absurd (hpos.trans hle) (Nat.not_succ_le_zero 0)⟩
  · have hq := hstep.trans hbegin
    have hpending := (begin_acceptMove (s := { s with pending := later }) hb hbegin).pending
    refine ⟨n, (core_run_succ n hq).trans hcomes.1, fun m hpos hle => ?_⟩
    obtain ⟨k, rfl⟩ := Nat.exists_eq_add_of_le' hpos
    obtain ⟨t, ht, htb⟩ := hcomes.2 k hle
    exact ⟨t, (core_run_succ k hq).trans ht, htb, (hcomes.pending (Nat.le_of_lt hle) ht).trans hpending⟩

/-- Settles O49: the run of the command, in which every state's trace is a beginning of those after it. -/
theorem commandsAreTheSequenceOfTheirSteps : Obligations.CommandsAreTheSequenceOfTheirSteps := by
  intro s u w later hb hp hexec _
  obtain ⟨n, hrun, hbetween⟩ := command_run hb hp
  rw [hexec] at hrun
  refine ⟨n, hrun, fun m hpos hle => ?_⟩
  obtain ⟨t, ht, htb, htp⟩ := hbetween m hpos hle
  obtain ⟨k, hk⟩ := Nat.exists_eq_add_of_le (Nat.le_succ_of_le hle)
  have hrest : Sys2Proof.core.run k t = .next u := by
    rw [← core_run_add _ m k ht, ← hk]
    exact hrun
  obtain ⟨es, htrace⟩ := core_run_trace hrest
  exact ⟨t, ht, htb, htp, es, htrace.symm⟩

/-- The bytes that the decoder takes at `TP` stand in the ROM (R93). -/
theorem TableRom.spells_of_bytesFrom {r : TableRom} {k a : Nat} {bytes rest : List Byte}
    (h : r.bytesFrom k a = bytes ++ rest) : r.spells a bytes := by
  intro j b hj
  refine r.bytesFrom_getElem k a j b ?_
  rw [h, List.getElem?_append_left (List.getElem?_eq_some_iff.1 hj).1, hj]

/-- Settles O37: a command by its run, END by the walker's fetch, a TXN by the steps of its entry. -/
theorem stepRunsTheDecodedInstruction : Obligations.StepRunsTheDecodedInstruction := by
  refine ⟨fun s w later hb hp => ?_, fun s w rest hb hp hdecode => ?_, fun s w data rest hb hp hdecode => ?_,
    fun s hb hp => ?_⟩
  · obtain ⟨n, hrun, -⟩ := command_run hb hp
    exact ⟨fun t ht => ⟨n, hrun.trans ht⟩, fun r hr => ⟨n, hrun.trans hr⟩⟩
  · obtain ⟨-, hbytes⟩ | ⟨data, htxn, -⟩ := decodeEntry_cases hdecode
    · have hread := (TableRom.spells_cons (TableRom.spells_of_bytesFrom (bytes := [0x00#8]) hbytes)).1
      rw [step_walk hb hp, State.walkStep, hread]
      rfl
    · cases htxn
  · obtain ⟨hend, -⟩ | ⟨data, htxn, ⟨hpos, hfit⟩, hbytes⟩ := decodeEntry_cases hdecode
    · cases hend
    · cases htxn
      exact (entry_comesTo hb hp hpos hfit (TableRom.spells_of_bytesFrom hbytes)).1
  · rw [step_idle hb, State.acceptStep, hp]

/-- Settles O48: the steps of the walk of the table at `TP`. -/
theorem walkingInstructionByInstructionAgrees : Obligations.WalkingInstructionByInstructionAgrees := by
  intro s w entries hb hp htable
  obtain ⟨hok, hspells⟩ := TableRom.table_eq_some_iff.1 htable
  rw [← State.walkEntries_eq]
  exact (walk_comesTo hb hp hok hspells).1

end Sys2Proof.Machine
end

section
/-! The statements about the ready poll of a RESET, step by step (43_reset_command.md R180 to R186). -/

namespace Sys2Proof.Machine

/-- A poll of a chip that is not ready: one status frame, and the next one is due (R183). -/
theorem poll_notReady_comesTo {s : State} (hb : s.busy = true) (hp : s.phase = .frame .status)
    (hr : (s.replyAt 1).getLsbD 7 = true) :
    ComesTo statusSteps s (.next (s.afterFrame [0x80#8, s.params.dummyOut])) := by
  have hstatus := status_comesTo hb hp
  rw [chipReady_eq, hr] at hstatus
  have hphase : s.afterFrame [0x80#8, s.params.dummyOut] =
      { s.afterFrame [0x80#8, s.params.dummyOut] with phase := .frame .status } :=
    congrArg (fun p => { s.afterFrame [0x80#8, s.params.dummyOut] with phase := p }) hp
  rwa [hphase]

/-- A status frame of a chip that is ready: the INIT walk is due (R184). -/
theorem poll_ready_comesTo {s : State} (hb : s.busy = true) (hp : s.phase = .frame .status)
    (hr : (s.replyAt 1).getLsbD 7 = false) :
    ComesTo statusSteps s
      (.next { s.afterFrame [0x80#8, s.params.dummyOut] with phase := .table .init }) := by
  have hstatus := status_comesTo hb hp
  rwa [chipReady_eq, hr] at hstatus

/-- A poll of a chip that is ready: one status frame, the INIT table, completion (R183, R184). -/
theorem poll_completes_comesTo {s : State} {entries : List (List Byte)} (hb : s.busy = true)
    (hp : s.phase = .frame .status) (hr : (s.replyAt 1).getLsbD 7 = false)
    (htable : s.rom.table s.rom.initBase = some entries) :
    ComesTo (statusSteps + (1 + tableSteps entries)) s
      (.next ((s.afterFrame [0x80#8, s.params.dummyOut]).afterWalk s.rom.initBase entries).complete) :=
  (poll_ready_comesTo hb hp hr).trans
    (table_comesTo (s := { s.afterFrame [0x80#8, s.params.dummyOut] with phase := .table .init }) (w := .init)
      hb rfl rfl htable)

/-- Settles O30: the poll's four steps, and the walk's after them. -/
theorem pollMakesOneStatusFrame : Obligations.PollMakesOneStatusFrame := by
  intro s hb hp
  refine ⟨fun hr => (poll_notReady_comesTo hb hp hr).1, fun entries hr htable => ?_⟩
  rw [Nat.add_assoc]
  exact (poll_completes_comesTo hb hp hr htable).1

/-- `n` polls of a chip that is not ready lead from `s` to `t` (R183). -/
structure State.Polled (n : Nat) (s t : State) : Prop where
  steps    : ComesTo (statusSteps * n) s (.next t)
  same     : t = { s with
    csN := t.csN, replies := s.replies.drop (2 * n), drawn := s.drawn + 2 * n, trace := t.trace }
  requests : newRequests s t = (List.replicate n (frameRequests [0x80#8, s.params.dummyOut])).flatten

theorem State.Polled.replyAt {n : Nat} {s t : State} (h : s.Polled n t) (k : Nat) :
    t.replyAt k = s.replyAt (2 * n + k) := by
  rw [h.same]
  exact State.replyAt_drop (2 * n) rfl rfl k

/-- As long as the chip is not ready, RESET polls (R183, R231). -/
theorem exists_polled {s : State} (hb : s.busy = true) (hp : s.phase = .frame .status) (n : Nat)
    (hr : ∀ k, k < n → (s.replyAt (2 * k + 1)).getLsbD 7 = true) : ∃ t, s.Polled n t := by
  induction n with
  | zero => exact ⟨s, ⟨rfl, nofun⟩, rfl, newRequests_of (es := []) (List.append_nil _).symm⟩
  | succ n ih =>
    obtain ⟨t, h⟩ := ih fun k hk => hr k (Nat.lt_succ_of_lt hk)
    have hlast := poll_notReady_comesTo (s := t) (by rw [h.same]; exact hb) (by rw [h.same]; exact hp)
      (by rw [h.replyAt]; exact hr n (Nat.lt_succ_self n))
    have hgrows := core_run_trace h.steps.1
    refine ⟨_, h.steps.trans hlast, ?_, ?_⟩
    · rw [h.same]
      simp [State.afterFrame, List.drop_drop, Nat.mul_succ, Nat.add_assoc]
    · rw [newRequests_chain hgrows (State.afterFrame_prefix _ t), newRequests_afterFrame, h.requests,
        List.replicate_succ', List.flatten_append, h.same]
      simp

/-- Settles O32: the polls of the chip that is not ready, and every step inside them. -/
theorem resetHangsWhileTheChipIsNotReady : Obligations.ResetHangsWhileTheChipIsNotReady := by
  intro n s hb hp hr
  obtain ⟨t, h⟩ := exists_polled hb hp n hr
  refine ⟨fun m hm => ?_, t, h.steps.1, by rw [h.same]; exact hp, h.requests⟩
  obtain hlt | rfl := Nat.lt_or_eq_of_le hm
  · obtain ⟨u, hu, hub⟩ := h.steps.2 m hlt
    exact ⟨u, hu, hub, h.steps.pending hm hu⟩
  · exact ⟨t, h.steps.1, by rw [h.same]; exact hb, h.steps.pending hm h.steps.1⟩

theorem bootRequests_succ (p : Params) (n : Nat) :
    bootRequests p (n + 1) = bootRequests p 0 ++
      (List.replicate n (frameRequests [0x80#8, p.dummyOut])).flatten ++
        frameRequests [0x80#8, p.dummyOut] := by
  simp [bootRequests, List.replicate_succ']

/-- Settles O31: acceptance, the bus and the pin, `n` polls of the chip that is not ready, and one of the chip
that is. -/
theorem resetCompletesOnceTheChipIsReady : Obligations.ResetCompletesOnceTheChipIsReady := by
  intro n s operand later entries hb hp hbusy hready htable
  let accepted : State := { s with pending := later }
  let booted : State := { accepted.afterPinInit operand with phase := .frame .status }
  have haccept : step s = .next { accepted.accept Opcode.reset operand with phase := .configure } := by
    rw [step_begin hb hp, cmdOpcode_commandWord, cmdOperand_commandWord]
    exact begin_reset_idle hb
  obtain ⟨t, hpolled⟩ := exists_polled (s := booted) rfl rfl n hbusy
  have hkept : t.busy = true ∧ t.phase = .frame .status ∧ t.rom = s.rom ∧ t.params = s.params ∧
      t.inited = true ∧ t.pending = later ∧ t.res = s.res ∧ t.pkt = s.pkt ∧ t.pktValid = s.pktValid := by
    rw [hpolled.same]
    exact ⟨rfl, rfl, rfl, rfl, rfl, rfl, rfl, rfl, rfl⟩
  obtain ⟨htb, htp, hrom, hparams, hi, hpending, hres, hpkt, hvalid⟩ := hkept
  have hlast := poll_completes_comesTo htb htp (hpolled.replyAt 1 ▸ hready) (hrom ▸ htable)
  have hrun := (boot_comesTo (s := accepted) operand).trans (hpolled.steps.trans hlast)
  let framed := t.afterFrame [0x80#8, t.params.dummyOut]
  have hbooted : s.trace <+: booted.trace := State.afterPinInit_prefix operand s
  have hpolls : booted.trace <+: t.trace := core_run_trace hpolled.steps.1
  have hframed : t.trace <+: framed.trace := State.afterFrame_prefix _ t
  refine ⟨(framed.afterWalk t.rom.initBase entries).complete, ?_, rfl, hi, hpending, hres, hpkt, hvalid, ?_⟩
  · rw [show 4 + statusSteps * (n + 1) + 1 + tableSteps entries =
      3 + (statusSteps * n + (statusSteps + (1 + tableSteps entries))) + 1 by
        rw [Nat.mul_succ]; omega]
    exact (core_run_succ _ haccept).trans hrun.1
  · calc newRequests s (framed.afterWalk t.rom.initBase entries)
      _ = newRequests s booted ++ newRequests booted t ++ newRequests t framed ++
          newRequests framed (framed.afterWalk t.rom.initBase entries) := by
        rw [newRequests_chain ((hbooted.trans hpolls).trans hframed) (State.afterWalk_prefix _ _ framed),
          newRequests_chain (hbooted.trans hpolls) hframed, newRequests_chain hbooted hpolls]
      _ = bootRequests s.params 0 ++ (List.replicate n (frameRequests [0x80#8, s.params.dummyOut])).flatten ++
          frameRequests [0x80#8, s.params.dummyOut] ++ tableRequests entries := by
        rw [hpolled.requests, newRequests_afterFrame, newRequests_afterWalk, hparams]
        exact congrArg (· ++ _ ++ _ ++ _) (newRequests_afterPinInit operand accepted)
      _ = bootRequests s.params (n + 1) ++ tableRequests entries := by rw [bootRequests_succ]

/-- Settles O35: the command rules' own refusals, and a poll that finds a ready chip and no table. -/
theorem refusalsAfterBoot : Obligations.RefusalsAfterBoot := by
  intro x s hi
  refine ⟨fun hb => ⟨exec_transmitPacket_noPacket hb hi,
    fun hx => exec_applyTable_badTableId hb hi (TableRom.base_eq_none_iff.2 hx),
    fun id base hid htable => ?_, fun htables => ⟨?_, fun hv => ?_⟩,
    fun hr htable => resetWithAnIllFormedInitIsRefused x s hb hr htable⟩, fun hb hp hr htable => ?_⟩
  · rw [exec_applyTable_idle hb hi (TableRom.base_eq_some hid)]
    exact State.withTable_none (s := s.accept Opcode.applyTable id) htable _
  · rw [exec_sendMotorPower_idle hb hi]
    exact State.transmit_badTable (s := (s.accept Opcode.sendMotorPower x).buildPacket x) htables
  · rw [exec_transmitPacket_idle hb hi hv]
    exact State.transmit_badTable (s := s.accept Opcode.transmitPacket x) htables
  · exact ((poll_ready_comesTo hb hp hr).trans (table_comesTo_refused
      (s := { s.afterFrame [0x80#8, s.params.dummyOut] with phase := .table .init }) hb rfl rfl htable)).1

end Sys2Proof.Machine
end
